-- ==== Sys2Proof/Word.lean ====
section
/-! DEFINITION. The widths of the SPN16 core (00_scope.md R14) and the sixteen positions of a block. -/

namespace Sys2Proof

/-- A register word, or the command word: 32 bits (R14). -/
abbrev Word := BitVec 32

/-- A block: "an unsigned 16-bit integer; the sole unit of encryption" (R14). -/
abbrev Block := BitVec 16

/-- A nibble, and an entry of a table: 4 bits (R14). -/
abbrev Nibble := BitVec 4

/-- The ROUNDS field: 8 bits (R103). -/
abbrev RoundCount := BitVec 8

/-- A byte address of the register space: 9 bits (R70). -/
abbrev Addr := BitVec 9

/-- An ordered sequence of 16 entries of 4 bits: the form of SBOX and of PERM (R8, R9). -/
abbrev Table := Vector Nibble 16

/-- The positions 0..15: the bits of a block, the entries of a table, the trials of a sample. -/
def positions : List (Fin 16) :=
  [0, 1, 2, 3, 4, 5, 6, 7, 8, 9, 10, 11, 12, 13, 14, 15]

end Sys2Proof
end

