-- ==== Sys2Proof/Syntax.lean ====
section
/-! DEFINITION. The commands of the core, one constructor per row of the opcode table (30_encoding.md R106), and the
codes of the errors a command word can have (60_exceptions.md R221). -/

namespace Sys2Proof

/-- The ten operations of the opcode map (R106). -/
inductive Opcode
  | sbox | sboxInv | sub | subInv | perm | permInv | enc | dec | sac | bic
  deriving DecidableEq, Repr

/-- A command with its operands. SBOX and SBOXINV take a nibble, the others a block, and the last four a round count
too (R104, R106, R111). -/
inductive Instr
  /-- SBOX: forward nibble substitution (R133). -/
  | sbox (v : Nibble)
  /-- SBOXINV: inverse nibble substitution (R134). -/
  | sboxInv (v : Nibble)
  /-- SUB: forward 16-bit substitution (R135). -/
  | sub (x : Block)
  /-- SUBINV: inverse 16-bit substitution (R136). -/
  | subInv (x : Block)
  /-- PERM: forward bit permutation (R152). -/
  | perm (x : Block)
  /-- PERMINV: inverse bit permutation (R153). -/
  | permInv (x : Block)
  /-- ENC: encrypt `r` rounds (R169). -/
  | enc (r : RoundCount) (x : Block)
  /-- DEC: decrypt `r` rounds (R170). -/
  | dec (r : RoundCount) (x : Block)
  /-- SAC: strict-avalanche evaluation of a base block (R184). -/
  | sac (r : RoundCount) (b : Block)
  /-- BIC: bit-independence evaluation of a base block (R204). -/
  | bic (r : RoundCount) (b : Block)
  deriving DecidableEq, Repr

/-- The causes of a command error (R221). -/
inductive CmdError
  /-- ECODE 1: OP is 0x0 or 0xB to 0xF (R107). -/
  | illegal
  /-- ECODE 2: a field that must be 0 is not (R102, R108). -/
  | reserved
  /-- ECODE 3: ROUNDS is 0 where a round count is needed (R109). -/
  | rounds
  deriving DecidableEq, Repr

/-- The outcome of decoding a command word (R105): a valid command or the code of the first check that fails. -/
inductive Decoded
  | ok (i : Instr)
  | error (e : CmdError)
  deriving DecidableEq, Repr

end Sys2Proof
end

