-- ==== Sys2Proof/Config.lean ====
section
/-! DEFINITION. What is fixed when the core is built and never changes (10_state.md R32): the tables, with their default
values (00_scope.md R8, R9), the configuration made of them (R10), and the two values the spec leaves open: the latency
(R13) and the word a read of a pending register returns (20_memory.md R76). -/

namespace Sys2Proof

/-- The two tables the core is elaborated with. -/
structure Tables where
  /-- `SBOX`: indexed by a 4-bit input (R8). -/
  sbox : Table
  /-- `PERM`: source bit position to destination bit position (R9). -/
  perm : Table
  deriving DecidableEq, Repr

/-- The tables of this hardware (R8, R9). -/
def Tables.default : Tables where
  sbox := #v[3, 15, 14, 1, 13, 8, 11, 6, 4, 10, 7, 12, 2, 9, 5, 0]
  perm := #v[0, 4, 8, 12, 1, 5, 9, 13, 2, 6, 10, 14, 3, 7, 11, 15]

/-- The identity tables, "a valid configuration for testing" (R187). -/
def Tables.identity : Tables where
  sbox := #v[0, 1, 2, 3, 4, 5, 6, 7, 8, 9, 10, 11, 12, 13, 14, 15]
  perm := #v[0, 1, 2, 3, 4, 5, 6, 7, 8, 9, 10, 11, 12, 13, 14, 15]

/-- An elaborated configuration: the tables and the inverses computed from them once (R10). -/
structure Config where
  sbox : Table
  sboxInv : Table
  perm : Table
  permInv : Table
  deriving DecidableEq, Repr

/-- FREE VALUE. The word that the n-th read of a register of the pending write set returns: "any 32-bit word, under no
law" (R76), a separate draw for each read (93_implementation_defined.md U1). It has no body, so nothing can be proved of
its value (notes/assumptions/3.md). -/
opaque Config.freeWord : Nat → Word

/-- OPEN PARAMETER. `LAT(op, rounds)` less one (R13): it has no body, and nothing reads it, since "no rule of the model
depends on its value" (notes/assumptions/9.md). -/
opaque Config.latencyBeyondOne : Opcode → RoundCount → Nat

/-- `LAT(op, rounds)`: clock cycles from acceptance to completion, at least 1, a function of the opcode and the round
count only (R13, R263, R264). -/
def Config.latency (op : Opcode) (rounds : RoundCount) : Nat :=
  Config.latencyBeyondOne op rounds + 1

end Sys2Proof
end

