-- ==== Sys2Proof/Machine/State.lean ====
section
/-! DEFINITION. The state of the machine. `Arch` is the spec's own state record (10_state.md R50). `State` adds the
model's own fields: the inputs still to come, the bus responses returned so far, and the counter of free draws
(notes/assumptions/1.md, 3.md, 6.md). -/

namespace Sys2Proof.Machine

/-- The size of a bus transaction (20_memory.md R72): one transfer of some number of bits, or a burst. Only one transfer
of 32 bits is taken. -/
inductive AccessSize
  | single (bits : Nat)
  | burst (bits beats : Nat)
  deriving DecidableEq, Repr

/-- The kinds of a bus error (60_exceptions.md R222). -/
inductive BusErrorKind
  /-- SIZE: a transaction size other than 32 bits. -/
  | size
  /-- ADDR: an address that is not a multiple of 4, or in an unmapped slot. -/
  | addr
  /-- RO: a write to a mapped register other than CMD. -/
  | ro
  /-- BUSY: a write to CMD while a command is pending. -/
  | busy
  deriving DecidableEq, Repr

/-- What a bus transaction returns to the host (00_scope.md R20). -/
inductive Response
  /-- A read completed with this word. -/
  | data (v : Word)
  /-- A write was taken. -/
  | written
  /-- A bus error response; no state of the core changed (20_memory.md R79). -/
  | busError (kind : BusErrorKind)
  deriving DecidableEq, Repr

/-- What can happen next: a host bus transaction, the engine's turn, or reset (00_scope.md R19). -/
inductive Event
  /-- `BusRead(addr, size)` (R75). -/
  | busRead (addr : Addr) (size : AccessSize)
  /-- `BusWrite(addr, v, size)` (R77). -/
  | busWrite (addr : Addr) (v : Word) (size : AccessSize)
  /-- The engine completes the pending command, if there is one (R84). -/
  | engine
  /-- Reset, one atomic event (70_reset_and_hazards.md R250). -/
  | reset
  deriving DecidableEq, Repr

/-- The Gram matrix as BIC_GRAM holds it: 16 rows of 16 entries of 5 bits (10_state.md R45). -/
abbrev BicMatrix := Vector (Vector (BitVec 5) 16) 16

/-- "The state a model holds is exactly" this (R50). STATUS.BUSY is `pending ≠ none` (R34) and SAC_PCT is a view of
`sacSum` (R40). -/
structure Arch where
  /-- CMD: the last command word the port accepted, valid or not (R33). -/
  cmd : Word
  /-- PENDING: none, or the valid command accepted and not yet completed (R46). -/
  pending : Option Instr
  /-- STATUS.DONE: the last accepted command has finished (R34). -/
  done : Bool
  /-- STATUS.ERR: the last accepted command ended in a command error (R34). -/
  err : Bool
  /-- STATUS.ECODE: the command error code (R34, R221). -/
  ecode : BitVec 4
  /-- RESULT (R37). -/
  result : Block
  /-- ORIG (R38). -/
  orig : Block
  /-- TRIAL[0..15] (R44). -/
  trial : Vector Block 16
  /-- SAC_SUM, 0 to 256 (R39). -/
  sacSum : BitVec 9
  /-- BIC_SCORE, 30 fraction bits, 0 to 2^30 (R41). -/
  bicScore : BitVec 31
  /-- BIC_ZV (R42). -/
  bicZv : Block
  /-- The entries `G[j][k]` of BIC_GRAM, 0 to 16 each (R45). -/
  gram : BicMatrix
  deriving DecidableEq, Repr

/-- The reset values of R49. -/
def Arch.reset : Arch where
  cmd := 0
  pending := none
  done := false
  err := false
  ecode := 0
  result := 0
  orig := 0
  trial := Vector.replicate 16 0
  sacSum := 0
  bicScore := 0
  bicZv := 0
  gram := Vector.replicate 16 (Vector.replicate 16 0)

/-- The state of the machine: the core, and the model's own fields for the world around it. -/
structure State where
  /-- The core: everything the spec gives it (R50). -/
  arch : Arch
  /-- MODEL'S OWN. The inputs still to come, in the order in which they take effect (notes/assumptions/1.md). -/
  schedule : List Event
  /-- MODEL'S OWN. The bus responses returned so far, the newest first (notes/assumptions/6.md). -/
  responses : List Response
  /-- MODEL'S OWN. How many free words have been drawn (notes/assumptions/3.md). -/
  draws : Nat
  deriving DecidableEq, Repr

/-- The machine right after reset (R49): the core idle, nothing scheduled, nothing answered, nothing drawn. -/
def State.reset : State where
  arch := Arch.reset
  schedule := []
  responses := []
  draws := 0

/-- Why a step can stop the machine with a fault: never. "The core has no trap, no hang and no fault bit" beyond the
bus error response and the recorded command error (R20), after both of which the machine goes on, and "no behaviour of
the core is stuck" (93_implementation_defined.md). So no constructor. -/
inductive Fault
  deriving DecidableEq, Repr

/-- Why the model gives no next state, or no machine. -/
inductive Refusal
  /-- Raised by an arm of `exec` whose instruction has no meaning yet. Safe: nothing is claimed. No arm raises it. -/
  | notModelled (mnemonic : String)
  /-- Raised by `elaborate`, never by a step: SBOX or PERM is not a bijection on 0..15, and no core exists (R11, R20).
  Safe: the spec refuses it too. -/
  | invalidTables
  deriving DecidableEq, Repr

end Sys2Proof.Machine
end

