-- ==== Sys2Proof/Machine/Elaboration.lean ====
section
/-! DEFINITION. Building the configuration from the tables, once (00_scope.md R10, R11, R253). -/

namespace Sys2Proof.Machine

/-- `T[v]`: the entry of a table at a 4-bit index (R16). -/
def tableAt (t : Table) (v : Nibble) : Nibble := t[v.toNat]

/-- All 16 entries are distinct: the table is a bijection on 0..15 (R11). -/
def isBijection (t : Table) : Bool :=
  positions.all fun i => positions.all fun j => i == j || t[i] != t[j]

/-- The positional inverse: entry `T[i]` of the inverse is `i` (R10). Of a table that is no bijection it is a table of no
meaning, and no core is built from it (notes/assumptions/8.md). -/
def inverseTable (t : Table) : Table :=
  Vector.ofFn fun k : Fin 16 =>
    match positions.find? fun i => t[i] == BitVec.ofFin k with
    | some i => BitVec.ofFin i
    | none => 0

/-- Both tables pass the check of R11. -/
def Tables.areValid (t : Tables) : Bool := isBijection t.sbox && isBijection t.perm

/-- The configuration of the tables, with the inverses derived from them (R10). -/
def configOf (t : Tables) : Config where
  sbox := t.sbox
  sboxInv := inverseTable t.sbox
  perm := t.perm
  permInv := inverseTable t.perm

/-- The configuration of this hardware: the tables of R8 and R9 (notes/assumptions/7.md). -/
def defaultConfig : Config := configOf Tables.default

/-- The identity configuration of R187 and R208. -/
def identityConfig : Config := configOf Tables.identity

end Sys2Proof.Machine
end

