-- ==== Sys2Proof/WellFormed.lean ====
section
/-! DEFINITION. When a command is one the core runs: the round count of ENC, DEC, SAC and BIC is 1 to 255
(00_scope.md R12, 30_encoding.md R109). The other operands fill their fields, so no check is left for them. -/

namespace Sys2Proof

/-- The command is valid: it carries a positive round count where it carries one (R12). -/
def Instr.wf : Instr → Bool
  | .sbox _ => true
  | .sboxInv _ => true
  | .sub _ => true
  | .subInv _ => true
  | .perm _ => true
  | .permInv _ => true
  | .enc r _ => r != 0
  | .dec r _ => r != 0
  | .sac r _ => r != 0
  | .bic r _ => r != 0

/-- The command is valid, as a proposition that can be decided. -/
abbrev Instr.WellFormed (i : Instr) : Prop := i.wf = true

end Sys2Proof
end

