-- ==== Sys2Proof/Decode.lean ====
section
/-! DEFINITION. The command word (30_encoding.md R100), its decoding with the errors in their order (R105), and the
encoder (R111, R116). -/

namespace Sys2Proof

/-- OP = `cmd[31:28]` (R101). -/
def opField (cmd : Word) : BitVec 4 := cmd.extractLsb' 28 4

/-- RSV = `cmd[27:24]` (R102). -/
def rsvField (cmd : Word) : BitVec 4 := cmd.extractLsb' 24 4

/-- ROUNDS = `cmd[23:16]` (R103). -/
def roundsField (cmd : Word) : RoundCount := cmd.extractLsb' 16 8

/-- DATA = `cmd[15:0]` (R104). -/
def dataField (cmd : Word) : Block := cmd.extractLsb' 0 16

/-- The opcode numbers of R106. -/
def Opcode.bits : Opcode → BitVec 4
  | .sbox => 0x1
  | .sboxInv => 0x2
  | .sub => 0x3
  | .subInv => 0x4
  | .perm => 0x5
  | .permInv => 0x6
  | .enc => 0x7
  | .dec => 0x8
  | .sac => 0x9
  | .bic => 0xA

/-- The operation an OP field selects; none for the illegal ones, 0x0 and 0xB to 0xF (R106, R107). -/
def Opcode.ofBits (op : BitVec 4) : Option Opcode :=
  match op.toNat with
  | 0x1 => some .sbox
  | 0x2 => some .sboxInv
  | 0x3 => some .sub
  | 0x4 => some .subInv
  | 0x5 => some .perm
  | 0x6 => some .permInv
  | 0x7 => some .enc
  | 0x8 => some .dec
  | 0x9 => some .sac
  | 0xA => some .bic
  | _ => none

/-- The operand is the nibble `DATA[3:0]`, and `DATA[15:4]` must be 0 (R104). -/
def Opcode.takesNibble : Opcode → Bool
  | .sbox => true
  | .sboxInv => true
  | .sub => false
  | .subInv => false
  | .perm => false
  | .permInv => false
  | .enc => false
  | .dec => false
  | .sac => false
  | .bic => false

/-- ROUNDS is a round count; for the other operations it must be 0 (R103, R108). -/
def Opcode.takesRounds : Opcode → Bool
  | .sbox => false
  | .sboxInv => false
  | .sub => false
  | .subInv => false
  | .perm => false
  | .permInv => false
  | .enc => true
  | .dec => true
  | .sac => true
  | .bic => true

/-- The command of an operation with the fields ROUNDS and DATA. -/
def Opcode.instr (op : Opcode) (rnd : RoundCount) (d : Block) : Instr :=
  match op with
  | .sbox => .sbox (d.extractLsb' 0 4)
  | .sboxInv => .sboxInv (d.extractLsb' 0 4)
  | .sub => .sub d
  | .subInv => .subInv d
  | .perm => .perm d
  | .permInv => .permInv d
  | .enc => .enc rnd d
  | .dec => .dec rnd d
  | .sac => .sac rnd d
  | .bic => .bic rnd d

/-- A field that must be 0 is not: RSV for every operation, `DATA[15:4]` of SBOX and SBOXINV, ROUNDS of the six
operations that take no round count (R108). -/
def reservedFieldSet (op : Opcode) (cmd : Word) : Bool :=
  rsvField cmd != 0
    || (op.takesNibble && (dataField cmd).extractLsb' 4 12 != 0)
    || (!op.takesRounds && roundsField cmd != 0)

/-- `Decode(cmd)` of R105: total, and the first check that fails gives the error. -/
def decode (cmd : Word) : Decoded :=
  match Opcode.ofBits (opField cmd) with
  | none => .error .illegal
  | some op =>
    if reservedFieldSet op cmd then .error .reserved
    else if op.takesRounds && roundsField cmd == 0 then .error .rounds
    else .ok (op.instr (roundsField cmd) (dataField cmd))

/-- The row of the opcode table that a word meets, with its operands: the OP of the row and 0 in every field the row
fixes. A word of the rows ENC, DEC, SAC, BIC with ROUNDS = 0 is a word of its row; running it takes the command error
ROUNDS (R109; notes/assumptions/12.md). -/
def decodeRow (cmd : Word) : Option Instr :=
  match Opcode.ofBits (opField cmd) with
  | none => none
  | some op =>
    if reservedFieldSet op cmd then none else some (op.instr (roundsField cmd) (dataField cmd))

/-- The operation of a command. -/
def Instr.opcode : Instr → Opcode
  | .sbox _ => .sbox
  | .sboxInv _ => .sboxInv
  | .sub _ => .sub
  | .subInv _ => .subInv
  | .perm _ => .perm
  | .permInv _ => .permInv
  | .enc _ _ => .enc
  | .dec _ _ => .dec
  | .sac _ _ => .sac
  | .bic _ _ => .bic

/-- The ROUNDS field of a command: its round count, or 0 (R108). -/
def Instr.rounds : Instr → RoundCount
  | .sbox _ => 0
  | .sboxInv _ => 0
  | .sub _ => 0
  | .subInv _ => 0
  | .perm _ => 0
  | .permInv _ => 0
  | .enc r _ => r
  | .dec r _ => r
  | .sac r _ => r
  | .bic r _ => r

/-- The DATA field of a command: its block, or its nibble with 0 above it (R104). -/
def Instr.data : Instr → Block
  | .sbox v => v.setWidth 16
  | .sboxInv v => v.setWidth 16
  | .sub x => x
  | .subInv x => x
  | .perm x => x
  | .permInv x => x
  | .enc _ x => x
  | .dec _ x => x
  | .sac _ b => b
  | .bic _ b => b

/-- The command word of a command: OP, RSV = 0, ROUNDS, DATA from the top bit down (R100, R111). -/
def encode (i : Instr) : Word :=
  ((i.opcode.bits ++ (0 : BitVec 4)) ++ i.rounds) ++ i.data

/-- The instruction that the word `w` of an `nbits`-bit row stands for. A command is one 32-bit word (R110), so a longer
row stands for none, and the bits above a shorter one are 0. -/
def decodeTableWord (nbits w : Nat) : Option Instr :=
  if nbits ≤ 32 then decodeRow (BitVec.ofNat 32 (w % 2 ^ nbits)) else none

/-- The code of a command error as STATUS.ECODE holds it (R221). -/
def CmdError.code : CmdError → BitVec 4
  | .illegal => 1
  | .reserved => 2
  | .rounds => 3

end Sys2Proof
end

