-- ==== Sys2Proof/Machine/Flags.lean ====
section
/-! DEFINITION. STATUS: its word as the host reads it (10_state.md R34). The three ways it changes are acceptance,
completion and reset (Ops.lean). -/

namespace Sys2Proof.Machine

/-- STATUS.BUSY: a valid command is pending (R34, R46). -/
def isBusy (a : Arch) : Bool := a.pending.isSome

/-- The STATUS word: BUSY [0], DONE [1], ERR [2], 0 [3], ECODE [7:4], 0 [31:8] (R34). -/
def statusWord (a : Arch) : Word :=
  (0 : BitVec 24) ++ a.ecode ++ (0 : BitVec 1) ++ BitVec.ofBool a.err ++ BitVec.ofBool a.done
    ++ BitVec.ofBool (isBusy a)

end Sys2Proof.Machine
end

