-- ==== Sys2Proof/Machine/Operands.lean ====
section
/-! DEFINITION. The registers of the port: the address map (20_memory.md R71), the word each register reads as
(10_state.md R33 to R45, R48), and the write set of each operation (R91). -/

namespace Sys2Proof.Machine

/-- A mapped register (R71). -/
inductive Reg
  | cmd | status | result | orig | sacSum | sacPct | bicScore | bicZv
  /-- The configuration readback words, SBOX_CFG0 to PERMINV_CFG1 in the order of R43. -/
  | config (k : Fin 8)
  | trial (i : Fin 16)
  | bicGram (m : Fin 64)
  deriving DecidableEq, Repr

/-- The slot, 0 to 127, of a register (R71). -/
def Reg.slot : Reg → Nat
  | .cmd => 0
  | .status => 1
  | .result => 2
  | .orig => 3
  | .sacSum => 4
  | .sacPct => 5
  | .bicScore => 6
  | .bicZv => 7
  | .config k => 8 + k.val
  | .trial i => 16 + i.val
  | .bicGram m => 64 + m.val

/-- The byte offset of a register (R71). -/
def Reg.offset (r : Reg) : Addr := BitVec.ofNat 9 (4 * r.slot)

/-- The register in a word slot; none for the unmapped slots, offsets 0x080 to 0x0FC (R71, R74). -/
def regOfSlot (slot : Nat) : Option Reg :=
  match slot with
  | 0 => some .cmd
  | 1 => some .status
  | 2 => some .result
  | 3 => some .orig
  | 4 => some .sacSum
  | 5 => some .sacPct
  | 6 => some .bicScore
  | 7 => some .bicZv
  | n =>
    if n < 16 then some (.config (Fin.ofNat 8 (n - 8)))
    else if n < 32 then some (.trial (Fin.ofNat 16 (n - 16)))
    else if n < 64 then none
    else if n < 128 then some (.bicGram (Fin.ofNat 64 (n - 64)))
    else none

/-- The register at an address; none when `addr[1:0] ≠ 0` (R73) or the slot is unmapped (R74). -/
def regAt (addr : Addr) : Option Reg :=
  if addr.toNat % 4 = 0 then regOfSlot (addr.toNat / 4) else none

/-- Eight 4-bit entries packed in one word, entry `base + k` at bits [4k+3:4k] (R43). -/
def packEntries (t : Table) (base : Nat) : Word :=
  (List.range 8).foldl
    (fun w k => w ||| ((tableAt t (BitVec.ofNat 4 (base + k))).setWidth 32 <<< (4 * k))) 0

/-- A configuration readback word: hardwired to the elaborated tables (R43). -/
def configWord (cfg : Config) (k : Fin 8) : Word :=
  match k with
  | 0 => packEntries cfg.sbox 0
  | 1 => packEntries cfg.sbox 8
  | 2 => packEntries cfg.sboxInv 0
  | 3 => packEntries cfg.sboxInv 8
  | 4 => packEntries cfg.perm 0
  | 5 => packEntries cfg.perm 8
  | 6 => packEntries cfg.permInv 0
  | 7 => packEntries cfg.permInv 8

/-- `BIC_GRAM[m]`: row `m div 4`, columns `4·(m mod 4) + l` in the byte lanes l = 0..3, bits [8l+7:8l+5] 0 (R45). -/
def gramWord (g : BicMatrix) (m : Fin 64) : Word :=
  let row := g[m.val / 4]
  let lane (l : Fin 4) : BitVec 8 := (row[4 * (m.val % 4) + l.val]).setWidth 8
  lane 3 ++ lane 2 ++ lane 1 ++ lane 0

/-- SAC_PCT = SAC_SUM * 25 at all times, 6 fraction bits (R40). -/
def sacPct (sum : BitVec 9) : BitVec 13 := sum.setWidth 13 * 25

/-- The word a register holds, every reserved bit 0 (R33 to R45, R48). -/
def regWord (cfg : Config) (a : Arch) : Reg → Word
  | .cmd => a.cmd
  | .status => statusWord a
  | .result => a.result.setWidth 32
  | .orig => a.orig.setWidth 32
  | .sacSum => a.sacSum.setWidth 32
  | .sacPct => (sacPct a.sacSum).setWidth 32
  | .bicScore => a.bicScore.setWidth 32
  | .bicZv => a.bicZv.setWidth 32
  | .config k => configWord cfg k
  | .trial i => (a.trial[i]).setWidth 32
  | .bicGram m => gramWord a.gram m

/-- The completion of this operation writes this register (R91). STATUS, which every completion writes besides, is in no
write set. -/
def inWriteSetOf (op : Opcode) (r : Reg) : Bool :=
  match op, r with
  | .sac, .orig => true
  | .sac, .trial _ => true
  | .sac, .sacSum => true
  | .sac, .sacPct => true
  | .sac, _ => false
  | .bic, .orig => true
  | .bic, .trial _ => true
  | .bic, .bicScore => true
  | .bic, .bicZv => true
  | .bic, .bicGram _ => true
  | .bic, _ => false
  | _, .result => true
  | _, _ => false

/-- `WriteSet(PENDING)` of R75: empty when nothing is pending. -/
def inWriteSet (pending : Option Instr) (r : Reg) : Bool :=
  match pending with
  | none => false
  | some i => inWriteSetOf i.opcode r

end Sys2Proof.Machine
end

