-- ==== Sys2Proof/Machine/Ops.lean ====
section
/-! DEFINITION. The operations that change the state, shared by the commands and the port: accepting a command, the
command error (the core's only exception, 60_exceptions.md R225, R226), completion (20_memory.md R84), the result
registers, and reset (70_reset_and_hazards.md R250). -/

namespace Sys2Proof.Machine

/-- `CMD <- v`: the port latches every word it accepts, valid or not (R33, R77). -/
def latchCmd (v : Word) (a : Arch) : Arch := { a with cmd := v }

/-- A valid command becomes pending: `PENDING <- some c; DONE <- 0; ERR <- 0; ECODE <- 0` (R77). -/
def beginCommand (i : Instr) (a : Arch) : Arch :=
  { a with pending := some i, done := false, err := false, ecode := 0 }

/-- TAKING A COMMAND ERROR: STATUS gets DONE = 1, ERR = 1, ECODE = e, BUSY = 0, and nothing else is written (R225). No
state is saved and no control is transferred (R226); the core has no return from it (R227): the next accepted word clears
it. -/
def commandError (e : CmdError) (a : Arch) : Arch :=
  { a with pending := none, done := true, err := true, ecode := e.code }

/-- The end of every completion: `PENDING <- none; DONE <- 1; ERR <- 0; ECODE <- 0` (R84). -/
def completeCommand (a : Arch) : Arch :=
  { a with pending := none, done := true, err := false, ecode := 0 }

/-- `RESULT <- v`. -/
def writeResult (v : Block) (a : Arch) : Arch := { a with result := v }

/-- `ORIG <- o; TRIAL[i] <- t[i]` for every i (R184, R204). -/
def writeSample (o : Block) (t : Vector Block 16) (a : Arch) : Arch :=
  { a with orig := o, trial := t }

/-- `SAC_SUM <- n` (R184). -/
def writeSacSum (n : BitVec 9) (a : Arch) : Arch := { a with sacSum := n }

/-- `BIC_GRAM <- g; BIC_ZV <- z; BIC_SCORE <- n` (R204). -/
def writeBic (g : BicMatrix) (z : Block) (n : BitVec 31) (a : Arch) : Arch :=
  { a with gram := g, bicZv := z, bicScore := n }

/-- The host port's answer to a transaction is recorded (notes/assumptions/6.md). -/
def respond (r : Response) (s : State) : State := { s with responses := r :: s.responses }

/-- A state with another core. -/
def withArch (a : Arch) (s : State) : State := { s with arch := a }

/-- The engine completes a command: its writes and the end of the command, in one step (R84). -/
def completeWith (writes : Arch → Arch) (s : State) : State :=
  withArch (completeCommand (writes s.arch)) s

/-- A command ends in a command error (R225). -/
def endInError (e : CmdError) (s : State) : State := withArch (commandError e s.arch) s

/-- Reset: every piece of the core's state takes its reset value; a pending command is abandoned (R250). The host's own
inputs and record are not the core's and stay. -/
def resetCore (s : State) : State := withArch Arch.reset s

/-- A command with a round count: with ROUNDS = 0 it ends in the command error ROUNDS (R109, R221), otherwise it
completes (notes/assumptions/13.md). -/
def completeRounds (r : RoundCount) (writes : Arch → Arch) (s : State) : State :=
  if r = 0 then endInError .rounds s else completeWith writes s

end Sys2Proof.Machine
end

