-- ==== Sys2Proof/Machine/Bus.lean ====
section
/-! DEFINITION. The register-access port: reads (20_memory.md R75), writes and command acceptance (R77), with the bus
errors in the order SIZE, ADDR, RO, BUSY (60_exceptions.md R224). -/

namespace Sys2Proof.Machine

/-- `WriteSet`-aware read of a mapped register: a register of the pending write set returns a free word, a separate one
for each read (R75, R76); any other returns its word (R48). -/
def readReg (cfg : Config) (r : Reg) (s : State) : State :=
  if inWriteSet s.arch.pending r then
    respond (.data (Config.freeWord s.draws)) { s with draws := s.draws + 1 }
  else respond (.data (regWord cfg s.arch r)) s

/-- `BusRead(addr, size)` (R75). -/
def busRead (cfg : Config) (addr : Addr) (size : AccessSize) (s : State) : State :=
  if size ≠ .single 32 then respond (.busError .size) s
  else
    match regAt addr with
    | none => respond (.busError .addr) s
    | some r => readReg cfg r s

/-- Acceptance of a command word by an idle core (R77): CMD takes the word; a valid command becomes pending, any other
word ends in its command error. -/
def acceptWord (v : Word) (s : State) : State :=
  match decode v with
  | .error e => endInError e (withArch (latchCmd v s.arch) s)
  | .ok i => withArch (beginCommand i (latchCmd v s.arch)) s

/-- `BusWrite(addr, v, size)` (R77). -/
def busWrite (addr : Addr) (v : Word) (size : AccessSize) (s : State) : State :=
  if size ≠ .single 32 then respond (.busError .size) s
  else
    match regAt addr with
    | none => respond (.busError .addr) s
    | some .cmd =>
      if s.arch.pending.isSome then respond (.busError .busy) s
      else respond .written (acceptWord v s)
    | some _ => respond (.busError .ro) s

end Sys2Proof.Machine
end

