-- ==== Sys2Proof/Machine/Agents.lean ====
section
/-! DEFINITION. Whose turn it is (00_scope.md R19; 20_memory.md R84, R85): the total order of the host's transactions,
the engine's completions and reset is the state's schedule (notes/assumptions/1.md, 2.md). -/

namespace Sys2Proof.Machine

/-- The engine's turn: it completes the pending command by its meaning; with nothing pending its step is not enabled,
and nothing changes (R84). -/
def engineTurn (run : Instr → State → Host.Outcome State Fault Refusal) (s : State) :
    Host.Outcome State Fault Refusal :=
  match s.arch.pending with
  | some i => run i s
  | none => .next s

/-- One event takes effect. -/
def takeEvent (cfg : Config) (run : Instr → State → Host.Outcome State Fault Refusal) (e : Event)
    (s : State) : Host.Outcome State Fault Refusal :=
  match e with
  | .busRead addr size => .next (busRead cfg addr size s)
  | .busWrite addr v size => .next (busWrite addr v size s)
  | .engine => engineTurn run s
  | .reset => .next (resetCore s)

/-- One step: the next scheduled event; when none is left, the engine's turn, so that an accepted command completes
(70_reset_and_hazards.md R265) and an idle core stays as it is (60_exceptions.md R239). -/
def stepOf (cfg : Config) (run : Instr → State → Host.Outcome State Fault Refusal) (s : State) :
    Host.Outcome State Fault Refusal :=
  match s.schedule with
  | [] => engineTurn run s
  | e :: rest => takeEvent cfg run e { s with schedule := rest }

/-- The state in which a step runs the word `v` next. A valid word has been accepted and it is the engine's turn; any
other word is about to be written to CMD of an idle core, where its whole run is the command error it takes at
acceptance (R77, R225; notes/assumptions/4.md). -/
def placeWord (v : Word) (s : State) : State :=
  match decode v with
  | .ok i =>
    { s with
      arch := beginCommand i (latchCmd v s.arch)
      schedule := .engine :: s.schedule }
  | .error _ =>
    { s with
      arch := { s.arch with pending := none }
      schedule := .busWrite Reg.cmd.offset v (.single 32) :: s.schedule }

end Sys2Proof.Machine
end

