-- ==== Sys2Proof/Machine/Permutation.lean ====
section
/-! DEFINITION. The bit-permutation family (41_permutation.md): PERM, PERMINV. -/

namespace Sys2Proof.Machine

/-- `y[p] <- b`. -/
def writeBit (y : Block) (p : Nibble) (b : Bool) : Block :=
  (y &&& ~~~((1 : Block) <<< p.toNat)) ||| ((BitVec.ofBool b).setWidth 16 <<< p.toNat)

/-- `perm16(x, T)`: bit i of the input goes to position `T[i]` of the output, for i in 0..15 (R150). -/
def perm16 (x : Block) (t : Table) : Block :=
  positions.foldl (fun y i => writeBit y t[i] (x.getLsbD i.val)) 0

/-- PERM (R152), for a configuration. -/
def permWith (cfg : Config) (x : Block) (s : State) : State :=
  completeWith (writeResult (perm16 x cfg.perm)) s

/-- PERMINV (R153), for a configuration: the inverse table, never the forward one (R151). -/
def permInvWith (cfg : Config) (x : Block) (s : State) : State :=
  completeWith (writeResult (perm16 x cfg.permInv)) s

/-- PERM: forward bit permutation (R152). -/
def execPerm (x : Block) (s : State) : Host.Outcome State Fault Refusal :=
  .next (permWith defaultConfig x s)

/-- PERMINV: inverse bit permutation (R153). -/
def execPermInv (x : Block) (s : State) : Host.Outcome State Fault Refusal :=
  .next (permInvWith defaultConfig x s)

end Sys2Proof.Machine
end

