-- ==== Sys2Proof/Machine/Substitution.lean ====
section
/-! DEFINITION. The substitution family (40_substitution.md): SBOX, SBOXINV, SUB, SUBINV. -/

namespace Sys2Proof.Machine

/-- `substituteNibble(v, T) = T[v]` (R130). -/
def substituteNibble (v : Nibble) (t : Table) : Nibble := tableAt t v

/-- `sub16(x, T)`: each of the four nibbles substituted in its place (R131). -/
def sub16 (x : Block) (t : Table) : Block :=
  substituteNibble (x.extractLsb' 12 4) t ++ substituteNibble (x.extractLsb' 8 4) t
    ++ substituteNibble (x.extractLsb' 4 4) t ++ substituteNibble (x.extractLsb' 0 4) t

/-- SBOX (R133), for a configuration. -/
def sboxWith (cfg : Config) (v : Nibble) (s : State) : State :=
  completeWith (writeResult ((substituteNibble v cfg.sbox).setWidth 16)) s

/-- SBOXINV (R134), for a configuration. -/
def sboxInvWith (cfg : Config) (v : Nibble) (s : State) : State :=
  completeWith (writeResult ((substituteNibble v cfg.sboxInv).setWidth 16)) s

/-- SUB (R135), for a configuration. -/
def subWith (cfg : Config) (x : Block) (s : State) : State :=
  completeWith (writeResult (sub16 x cfg.sbox)) s

/-- SUBINV (R136), for a configuration. -/
def subInvWith (cfg : Config) (x : Block) (s : State) : State :=
  completeWith (writeResult (sub16 x cfg.sboxInv)) s

/-- SBOX: forward nibble substitution (R133). -/
def execSbox (v : Nibble) (s : State) : Host.Outcome State Fault Refusal :=
  .next (sboxWith defaultConfig v s)

/-- SBOXINV: inverse nibble substitution (R134). -/
def execSboxInv (v : Nibble) (s : State) : Host.Outcome State Fault Refusal :=
  .next (sboxInvWith defaultConfig v s)

/-- SUB: forward 16-bit substitution (R135). -/
def execSub (x : Block) (s : State) : Host.Outcome State Fault Refusal :=
  .next (subWith defaultConfig x s)

/-- SUBINV: inverse 16-bit substitution (R136). -/
def execSubInv (x : Block) (s : State) : Host.Outcome State Fault Refusal :=
  .next (subInvWith defaultConfig x s)

end Sys2Proof.Machine
end

