-- ==== Sys2Proof/Machine/RoundCipher.lean ====
section
/-! DEFINITION. The round cipher (42_round_cipher.md): ENC, DEC. -/

namespace Sys2Proof.Machine

/-- `round(x) = perm16(sub16(x, SBOX), PERM)` (R165). -/
def forwardRound (cfg : Config) (x : Block) : Block := perm16 (sub16 x cfg.sbox) cfg.perm

/-- `invround(x) = sub16(perm16(x, PERM_INV), SBOX_INV)` (R166, R174). -/
def inverseRound (cfg : Config) (x : Block) : Block := sub16 (perm16 x cfg.permInv) cfg.sboxInv

/-- `repeat n times: s <- f(s)`. -/
def repeatTimes (f : Block → Block) : Nat → Block → Block
  | 0, s => s
  | n + 1, s => repeatTimes f n (f s)

/-- `encrypt(x, r) = round^r(x)` (R167). -/
def encrypt (cfg : Config) (x : Block) (r : Nat) : Block := repeatTimes (forwardRound cfg) r x

/-- `decrypt(x, r) = invround^r(x)` (R168). -/
def decrypt (cfg : Config) (x : Block) (r : Nat) : Block := repeatTimes (inverseRound cfg) r x

/-- ENC (R169), for a configuration. -/
def encWith (cfg : Config) (r : RoundCount) (x : Block) (s : State) : State :=
  completeRounds r (writeResult (encrypt cfg x r.toNat)) s

/-- DEC (R170), for a configuration. -/
def decWith (cfg : Config) (r : RoundCount) (x : Block) (s : State) : State :=
  completeRounds r (writeResult (decrypt cfg x r.toNat)) s

/-- ENC: encrypt `r` rounds (R169); the command error ROUNDS for r = 0 (R109). -/
def execEnc (r : RoundCount) (x : Block) (s : State) : Host.Outcome State Fault Refusal :=
  .next (encWith defaultConfig r x s)

/-- DEC: decrypt `r` rounds (R170); the command error ROUNDS for r = 0 (R109). -/
def execDec (r : RoundCount) (x : Block) (s : State) : Host.Outcome State Fault Refusal :=
  .next (decWith defaultConfig r x s)

end Sys2Proof.Machine
end

