-- ==== Sys2Proof/Machine/Avalanche.lean ====
section
/-! DEFINITION. The avalanche sample and the SAC evaluation (43_sac.md): SAC. -/

namespace Sys2Proof.Machine

/-- The block with only bit i set, `1 << i` (R180). -/
def bitMask (i : Fin 16) : Block := (1 : Block) <<< i.val

/-- ORIG of the avalanche sample: the ciphertext of the base block (R180). -/
def sampleOrig (cfg : Config) (b : Block) (r : Nat) : Block := encrypt cfg b r

/-- TRIAL[0..15] of the avalanche sample: trial i is the ciphertext of the base block with bit i flipped (R180, R185). -/
def sampleTrials (cfg : Config) (b : Block) (r : Nat) : Vector Block 16 :=
  Vector.ofFn fun i => encrypt cfg (b ^^^ bitMask i) r

/-- `popcount(v)`: the number of 1 bits (R16). -/
def popcount (v : Block) : Nat := positions.countP fun i => v.getLsbD i.val

/-- `HD[i] = popcount(ORIG ^ TRIAL[i])` (R181). -/
def hammingDistance (o : Block) (t : Vector Block 16) (i : Fin 16) : Nat := popcount (o ^^^ t[i])

/-- The sum of the 16 Hamming distances, 0 to 256, held exactly in 9 bits (R182). -/
def sacSumOf (o : Block) (t : Vector Block 16) : Nat :=
  (positions.map fun i => hammingDistance o t i).sum

/-- SAC (R184), for a configuration. -/
def sacWith (cfg : Config) (r : RoundCount) (b : Block) (s : State) : State :=
  let o := sampleOrig cfg b r.toNat
  let t := sampleTrials cfg b r.toNat
  completeRounds r (fun a => writeSacSum (BitVec.ofNat 9 (sacSumOf o t)) (writeSample o t a)) s

/-- SAC: strict-avalanche evaluation (R184); the command error ROUNDS for r = 0 (R109). -/
def execSac (r : RoundCount) (b : Block) (s : State) : Host.Outcome State Fault Refusal :=
  .next (sacWith defaultConfig r b s)

end Sys2Proof.Machine
end

