-- ==== Sys2Proof/Machine/Surd.lean ====
section
/-! DEFINITION. Exact arithmetic for the BIC score (44_bic.md R203: "the floor is of the exact real"): the integer square
root, and the numbers built from integers, sums, products and the square roots of a fixed list of naturals, with their
sign. A number over the list `p :: ps` is a pair (a, b) of numbers over `ps`, standing for a + b·√p. -/

namespace Sys2Proof.Machine

/-- The bits below `2^n` of the integer square root of `v`, added to the root `acc` found so far, the highest first. -/
def isqrtBits (v : Nat) : Nat → Nat → Nat
  | 0, acc => acc
  | n + 1, acc =>
    let next := acc + 2 ^ n
    isqrtBits v n (if next * next ≤ v then next else acc)

/-- The integer square root: the greatest r with r² ≤ v. -/
def isqrt (v : Nat) : Nat := isqrtBits v (v.log2 / 2 + 1) 0

/-- The numbers over a list of radicands. -/
def Surd : List Nat → Type
  | [] => Int
  | _ :: ps => Surd ps × Surd ps

/-- An integer as such a number. -/
def surdOfInt : (ps : List Nat) → Int → Surd ps
  | [], z => z
  | _ :: ps, z => (surdOfInt ps z, surdOfInt ps 0)

/-- The sum. -/
def surdAdd : (ps : List Nat) → Surd ps → Surd ps → Surd ps
  | [], x, y => Int.add x y
  | _ :: ps, x, y => (surdAdd ps x.1 y.1, surdAdd ps x.2 y.2)

/-- The product with an integer. -/
def surdScale : (ps : List Nat) → Int → Surd ps → Surd ps
  | [], z, x => Int.mul z x
  | _ :: ps, z, x => (surdScale ps z x.1, surdScale ps z x.2)

/-- The product: (a + b√p)(c + d√p) = (ac + p·bd) + (ad + bc)√p. -/
def surdMul : (ps : List Nat) → Surd ps → Surd ps → Surd ps
  | [], x, y => Int.mul x y
  | p :: ps, x, y =>
    (surdAdd ps (surdMul ps x.1 y.1) (surdScale ps p (surdMul ps x.2 y.2)),
      surdAdd ps (surdMul ps x.1 y.2) (surdMul ps x.2 y.1))

/-- The sign, -1, 0 or 1. When a and b√p have opposite signs, the sign of a + b√p is that of a, 0 or its opposite as a²
is more than, equal to or less than p·b². -/
def surdSign : (ps : List Nat) → Surd ps → Int
  | [], x => Int.sign x
  | p :: ps, x =>
    let a := surdSign ps x.1
    let b := surdSign ps x.2
    if b = 0 then a
    else if a = 0 then b
    else if a = b then a
    else
      a * surdSign ps
        (surdAdd ps (surdMul ps x.1 x.1) (surdScale ps (-(p : Int)) (surdMul ps x.2 x.2)))

/-- `c · Π √p` over the radicands p whose mark in `e` is true. -/
def surdMonomial : (ps : List Nat) → List Bool → Int → Surd ps
  | [], _, c => c
  | _ :: ps, e, c =>
    if e.headD false then (surdOfInt ps 0, surdMonomial ps e.tail c)
    else (surdMonomial ps e.tail c, surdOfInt ps 0)

/-- The product of the square roots that the marks `e` and `f` choose: an integer factor, p for each radicand marked in
both, and the marks of the rest. -/
def surdMarks : List Nat → List Bool → List Bool → Int × List Bool
  | [], _, _ => (1, [])
  | p :: ps, e, f =>
    let m := surdMarks ps e.tail f.tail
    (if e.headD false && f.headD false then (p : Int) * m.1 else m.1,
      (e.headD false != f.headD false) :: m.2)

end Sys2Proof.Machine
end

