-- ==== Sys2Proof/Machine/Bic.lean ====
section
/-! DEFINITION. The BIC evaluation (44_bic.md): BIC. Every quantity is an exact integer; the score is the floor of the
exact real of R202, found by integer arithmetic alone (notes/assumptions/11.md). -/

namespace Sys2Proof.Machine

/-- `G[j][k]`: the number of trials whose ciphertext has both bit j and bit k set (R195, R197). -/
def gramCount (t : Vector Block 16) (j k : Fin 16) : Nat :=
  positions.countP fun i => (t[i]).getLsbD j.val && (t[i]).getLsbD k.val

/-- The Gram matrix as BIC_GRAM holds it (R45, R197). -/
def gramOf (t : Vector Block 16) : BicMatrix :=
  Vector.ofFn fun j => Vector.ofFn fun k => BitVec.ofNat 5 (gramCount t j k)

/-- An entry of the matrix as an integer. -/
def gramAt (g : BicMatrix) (j k : Fin 16) : Nat := ((g[j])[k]).toNat

/-- `n[j]`, the column count: the diagonal of the matrix (R196, R197). -/
def columnCount (g : BicMatrix) (j : Fin 16) : Nat := gramAt g j j

/-- `V[j] = n[j]·(16 − n[j])`, 256 times the variance of column j (R198). -/
def columnVariance (g : BicMatrix) (j : Fin 16) : Nat :=
  columnCount g j * (16 - columnCount g j)

/-- BIC_ZV: the sum over the zero-variance columns j of `1 << j` (R199, R204). -/
def zeroVarianceMask (g : BicMatrix) : Block :=
  positions.foldl (fun m j => if columnVariance g j = 0 then m ||| bitMask j else m) 0

/-- `|16·G[j][k] − n[j]·n[k]|`, the numerator of |r[j][k]| (R200). -/
def covariance (g : BicMatrix) (j k : Fin 16) : Nat :=
  (16 * (gramAt g j k : Int) - columnCount g j * columnCount g k).natAbs

/-- The pairs j < k: the score is the mean of |r[j][k]| over these 120 (R202). -/
def columnPairs : List (Fin 16 × Fin 16) :=
  positions.flatMap fun j => (positions.filter fun k => j < k).map fun k => (j, k)

/-- `floor(2^40 · |r[j][k]|)`, 0 for a pair with a zero-variance column (R200). -/
def scaledCorrelation (g : BicMatrix) (j k : Fin 16) : Nat :=
  isqrt (covariance g j k ^ 2 * 2 ^ 80 / (columnVariance g j * columnVariance g k))

/-- A number g with g ≤ BIC_exact·2^30 < g + 2: each of the 120 scaled correlations is less than 1 short. -/
def scoreEstimate (g : BicMatrix) : Nat :=
  (columnPairs.map fun p => scaledCorrelation g p.1 p.2).sum / (120 * 2 ^ 10)

/-- The radicands of the square roots of the variances. -/
def scoreRadicands : List Nat := [3, 5, 7, 11, 13]

/-- `√V` as an integer and the marks of the radicands, for the values V that n·(16 − n) takes. -/
def rootOfVariance (v : Nat) : Int × List Bool :=
  match v with
  | 15 => (1, [true, true, false, false, false])
  | 28 => (2, [false, false, true, false, false])
  | 39 => (1, [true, false, false, false, true])
  | 48 => (4, [true, false, false, false, false])
  | 55 => (1, [false, true, false, true, false])
  | 60 => (2, [true, true, false, false, false])
  | 63 => (3, [false, false, true, false, false])
  | 64 => (8, [false, false, false, false, false])
  | _ => (0, [false, false, false, false, false])

/-- A common multiple of the nonzero variances. -/
def varianceMultiple : Nat := 2882880

/-- `M² · |r[j][k]|` for the common multiple M, exactly: since 1/√(V·W) = √V·√W / (V·W) (R200). -/
def exactCorrelation (g : BicMatrix) (j k : Fin 16) : Surd scoreRadicands :=
  let v := columnVariance g j
  let w := columnVariance g k
  let m := surdMarks scoreRadicands (rootOfVariance v).2 (rootOfVariance w).2
  surdMonomial scoreRadicands m.2
    ((covariance g j k : Int) * (varianceMultiple ^ 2 / (v * w) : Nat)
      * (rootOfVariance v).1 * (rootOfVariance w).1 * m.1)

/-- `M² · Σ |r[j][k]|` over the pairs j < k, exactly. -/
def exactCorrelationSum (g : BicMatrix) : Surd scoreRadicands :=
  columnPairs.foldl (fun x p => surdAdd scoreRadicands x (exactCorrelation g p.1 p.2))
    (surdOfInt scoreRadicands 0)

/-- `k ≤ BIC_exact · 2^30`, decided exactly: the sign of 2^30·M²·Σ|r| − 120·k·M² (R202, R203). -/
def scoreIsAtLeast (g : BicMatrix) (k : Nat) : Bool :=
  0 ≤ surdSign scoreRadicands
    (surdAdd scoreRadicands (surdScale scoreRadicands (2 ^ 30) (exactCorrelationSum g))
      (surdOfInt scoreRadicands (-(120 * (k : Int) * (varianceMultiple : Int) ^ 2))))

/-- `BIC_SCORE = floor(BIC_exact · 2^30)` (R203): the estimate or one more, as the exact comparison says. -/
def bicScoreOf (g : BicMatrix) : Nat :=
  let k := scoreEstimate g
  if scoreIsAtLeast g (k + 1) then k + 1 else k

/-- BIC (R204), for a configuration. -/
def bicWith (cfg : Config) (r : RoundCount) (b : Block) (s : State) : State :=
  let o := sampleOrig cfg b r.toNat
  let t := sampleTrials cfg b r.toNat
  let g := gramOf t
  completeRounds r
    (fun a => writeBic g (zeroVarianceMask g) (BitVec.ofNat 31 (bicScoreOf g)) (writeSample o t a)) s

/-- BIC: bit-independence evaluation (R204); the command error ROUNDS for r = 0 (R109). -/
def execBic (r : RoundCount) (b : Block) (s : State) : Host.Outcome State Fault Refusal :=
  .next (bicWith defaultConfig r b s)

end Sys2Proof.Machine
end

