-- ==== Sys2Proof/Machine/Dispatch.lean ====
section
/-! DEFINITION. The meaning of each command: what the engine's completion of it does (20_memory.md R84). -/

namespace Sys2Proof.Machine

/-- One command, one meaning (R84, R106). -/
def exec (i : Instr) (s : State) : Host.Outcome State Fault Refusal :=
  match i with
  -- 40_substitution.md
  | .sbox v => Sys2Proof.Machine.execSbox v s
  | .sboxInv v => Sys2Proof.Machine.execSboxInv v s
  | .sub x => Sys2Proof.Machine.execSub x s
  | .subInv x => Sys2Proof.Machine.execSubInv x s
  -- 41_permutation.md
  | .perm x => Sys2Proof.Machine.execPerm x s
  | .permInv x => Sys2Proof.Machine.execPermInv x s
  -- 42_round_cipher.md
  | .enc r x => Sys2Proof.Machine.execEnc r x s
  | .dec r x => Sys2Proof.Machine.execDec r x s
  -- 43_sac.md
  | .sac r b => Sys2Proof.Machine.execSac r b s
  -- 44_bic.md
  | .bic r b => Sys2Proof.Machine.execBic r b s

end Sys2Proof.Machine
end

