-- ==== Sys2Proof/Machine/Step.lean ====
section
/-! DEFINITION. One step of the machine of this hardware: the default configuration and the meanings of `exec`. -/

namespace Sys2Proof.Machine

/-- One step (20_memory.md R84, R85). -/
def step (s : State) : Host.Outcome State Fault Refusal := stepOf defaultConfig exec s

/-- The state whose next step runs the word `w` of an `nbits`-bit row (notes/assumptions/4.md). -/
def State.withFetchWord (s : State) (nbits w : Nat) : State :=
  placeWord (BitVec.ofNat 32 (w % 2 ^ nbits)) s

end Sys2Proof.Machine
end

