-- ==== Sys2Proof/Machine/HostProgram.lean ====
section
/-! DEFINITION. Host programs (30_encoding.md R115) and their runs to the end (70_reset_and_hazards.md R266). The host
is outside the core; a run drives `step` with one event at a time (notes/assumptions/18.md). -/

namespace Sys2Proof.Machine

/-- A value in a host program: a word, with the bits of the result of an earlier read set in it where one is named
("host builds 0x80040000 | c", 95_test_vectors.md P1). Names are numbers. -/
inductive HostValue
  | word (w : Word)
  | orNamed (w : Word) (name : Nat)
  deriving DecidableEq, Repr

/-- A line of a host program (R115). A mnemonic line is `wr` of CMD's offset with its encoding. -/
inductive HostLine
  /-- `WR reg, value`: `BusWrite(offset(reg), value, 32)`. -/
  | wr (addr : Addr) (v : HostValue)
  /-- `RD reg -> name`: `BusRead(offset(reg), 32)`, the result named for later lines. -/
  | rd (addr : Addr) (name : Nat)
  /-- `WAIT`: repeat `RD STATUS` until STATUS.BUSY = 0. -/
  | wait
  /-- `EXPECT name = value`: a check on the result of an earlier read, not a bus transaction. -/
  | expect (name : Nat) (v : HostValue)
  /-- `<reset>`: the reset event (95_test_vectors.md P5). -/
  | reset
  deriving DecidableEq, Repr

/-- When the engine takes its turn around one line: before the line's transaction or not, and, for WAIT, after how many
reads of STATUS. Any choice is one interleaving that R84 allows. -/
structure Timing where
  engineFirst : Bool
  polls : Nat
  deriving DecidableEq, Repr

/-- A run under way: the machine, the results named so far (the newest first), and whether every EXPECT held. -/
structure HostRun where
  machine : State
  names : List (Nat × Word)
  expectationsHold : Bool
  deriving DecidableEq, Repr

/-- One event, as one step of the machine. -/
def oneEvent (e : Event) (s : State) : State :=
  match step { s with schedule := e :: s.schedule } with
  | .next t => t
  | .fault _ => s
  | .refused _ => s

/-- The word a name stands for: the word its latest read that returned one gave it, 0 when none did. DESIGN CHOICE: the
spec gives no value to a name that no read has given one, and calls a name whose read ended in a bus error undefined
(notes/assumptions/18.md). -/
def namedWord (names : List (Nat × Word)) (name : Nat) : Word :=
  ((names.find? fun p => p.1 == name).map Prod.snd).getD 0

/-- The value of an expression. -/
def hostValue (names : List (Nat × Word)) : HostValue → Word
  | .word w => w
  | .orNamed w name => w ||| namedWord names name

/-- The word the latest transaction returned; a bus error returns none. -/
def readWord (s : State) : Option Word :=
  match s.responses with
  | .data v :: _ => some v
  | _ => none

/-- A read of STATUS returned BUSY = 0. -/
def readsIdle (s : State) : Bool :=
  match readWord s with
  | some v => !v.getLsbD 0
  | none => false

/-- `WAIT`: reads of STATUS until one returns BUSY = 0, the engine taking its turn after `polls` of them at the latest
(R265). -/
def waitIdle : Nat → State → State
  | 0, s => oneEvent (.busRead Reg.status.offset (.single 32)) (oneEvent .engine s)
  | polls + 1, s =>
    let t := oneEvent (.busRead Reg.status.offset (.single 32)) s
    if readsIdle t then t else waitIdle polls t

/-- One line. DESIGN CHOICE: an `RD` that ends in a bus error returns no word and names none, so its name, which
95_test_vectors.md P3 calls undefined, keeps what an earlier read gave it (notes/assumptions/18.md). -/
def runLine (l : HostLine) (time : Timing) (h : HostRun) : HostRun :=
  let s := if time.engineFirst then oneEvent .engine h.machine else h.machine
  match l with
  | .wr addr v =>
    { h with machine := oneEvent (.busWrite addr (hostValue h.names v) (.single 32)) s }
  | .rd addr name =>
    let t := oneEvent (.busRead addr (.single 32)) s
    match readWord t with
    | some v => { h with machine := t, names := (name, v) :: h.names }
    | none => { h with machine := t }
  | .wait => { h with machine := waitIdle time.polls s }
  | .expect name v =>
    { h with
      machine := s
      expectationsHold := h.expectationsHold && namedWord h.names name == hostValue h.names v }
  | .reset => { h with machine := oneEvent .reset s }

/-- The lines of a program, each with its timing, from a state of the machine. -/
def runLines (p : List (HostLine × Timing)) (s : State) : HostRun :=
  p.foldl (fun h l => runLine l.1 l.2 h)
    { machine := s, names := [], expectationsHold := true }

/-- What is left of a run after its last line: the engine completes a command that is still pending (R265), and a run
that has ended is left as it is. -/
def endRun (h : HostRun) : HostRun := { h with machine := oneEvent .engine h.machine }

/-- A run has ended when its last line has executed and STATUS.BUSY = 0 (R266). -/
def hasEnded (h : HostRun) : Bool := !isBusy h.machine.arch

/-- The run of a program to its end (R266): its lines, then the completion of the command its last line may have left
pending. -/
def runProgram (p : List (HostLine × Timing)) (s : State) : HostRun := endRun (runLines p s)

/-- The observation of a run: the values its RD lines returned, in order, and the final state, in which STATUS.BUSY = 0
(R266). -/
def observation (h : HostRun) : List Word × Arch :=
  (h.names.reverse.map Prod.snd, h.machine.arch)

end Sys2Proof.Machine
end

