-- ==== Sys2Proof/Machine/Assembler.lean ====
section
/-! DEFINITION. The assembler (30_encoding.md R111 to R114): operands and their ranges, the default round count, the
literals, the pseudo-instructions. It is a host tool; text is a list of characters (notes/assumptions/17.md). -/

namespace Sys2Proof.Machine

/-- What a line names: a command or a pseudo-instruction (R111, R114). -/
inductive Mnemonic
  | command (op : Opcode)
  | round | invRound | aval | rtrip
  deriving DecidableEq, Repr

/-- A line: its mnemonic, the `rounds` operand where it is written, and the nibble or block. -/
structure AsmLine where
  mnemonic : Mnemonic
  rounds : Option Nat
  operand : Nat
  deriving DecidableEq, Repr

/-- The round count the assembler writes when the operand is omitted (R112). -/
def defaultRounds : Nat := 4

/-- A command from its operands. An operand out of range, or a round count where none is taken, is refused, not masked
(R111). -/
def assembleCommand (op : Opcode) (rounds : Option Nat) (operand : Nat) : Option Instr :=
  if op.takesRounds then
    let r := rounds.getD defaultRounds
    if 1 ≤ r ∧ r ≤ 255 ∧ operand ≤ 0xFFFF then
      some (op.instr (BitVec.ofNat 8 r) (BitVec.ofNat 16 operand))
    else none
  else if rounds.isNone ∧ operand ≤ (if op.takesNibble then 15 else 0xFFFF) then
    some (op.instr 0 (BitVec.ofNat 16 operand))
  else none

/-- A mnemonic line by itself: a write of its encoding to CMD (R115). -/
def issue (i : Instr) : HostLine := .wr Reg.cmd.offset (.word (encode i))

/-- The lines a line stands for (R114, R115). In RTRIP the name 0 holds the ciphertext `c`. -/
def expandLine (l : AsmLine) : Option (List HostLine) :=
  match l.mnemonic with
  | .command op => (assembleCommand op l.rounds l.operand).map fun i => [issue i]
  | .round =>
    if l.rounds.isSome then none
    else (assembleCommand .enc (some 1) l.operand).map fun i => [issue i]
  | .invRound =>
    if l.rounds.isSome then none
    else (assembleCommand .dec (some 1) l.operand).map fun i => [issue i]
  | .aval =>
    match assembleCommand .sac l.rounds l.operand, assembleCommand .bic l.rounds l.operand with
    | some sac, some bic => some [issue sac, .wait, issue bic, .wait]
    | _, _ => none
  | .rtrip =>
    match assembleCommand .enc l.rounds l.operand, assembleCommand .dec l.rounds 0 with
    | some enc, some dec =>
      some [issue enc, .wait, .rd Reg.result.offset 0,
        .wr Reg.cmd.offset (.orNamed (encode dec) 0), .wait]
    | _, _ => none

/-- The value of a decimal digit. -/
def decimalDigit (c : Char) : Option Nat :=
  if 48 ≤ c.toNat ∧ c.toNat ≤ 57 then some (c.toNat - 48) else none

/-- The value of a hexadecimal digit, of either case (R113). -/
def hexDigit (c : Char) : Option Nat :=
  if 48 ≤ c.toNat ∧ c.toNat ≤ 57 then some (c.toNat - 48)
  else if 65 ≤ c.toNat ∧ c.toNat ≤ 70 then some (c.toNat - 55)
  else if 97 ≤ c.toNat ∧ c.toNat ≤ 102 then some (c.toNat - 87)
  else none

/-- A nonempty row of digits in a base. -/
def digitsValue (base : Nat) (digit : Char → Option Nat) (cs : List Char) : Option Nat :=
  if cs.isEmpty then none
  else cs.foldl (fun n c => match n, digit c with
    | some n, some d => some (n * base + d)
    | _, _ => none) (some 0)

/-- A literal: hexadecimal with a 0x prefix, or decimal (R113). -/
def literal (cs : List Char) : Option Nat :=
  match cs with
  | '0' :: 'x' :: ds => digitsValue 16 hexDigit ds
  | _ => digitsValue 10 decimalDigit cs

/-- A blank: a space or a tab. -/
def isBlank (c : Char) : Bool := c == ' ' || c == '\t'

/-- The text without the blanks at its two ends. -/
def trimBlanks (cs : List Char) : List Char :=
  ((cs.dropWhile isBlank).reverse.dropWhile isBlank).reverse

/-- The text up to the first `;`, which starts a comment (R113). -/
def dropComment (cs : List Char) : List Char := cs.takeWhile fun c => c != ';'

/-- The pieces of a text between its commas. -/
def splitCommas : List Char → List (List Char)
  | [] => [[]]
  | c :: cs =>
    match splitCommas cs with
    | [] => [[c]]
    | first :: rest => if c == ',' then [] :: first :: rest else (c :: first) :: rest

/-- The mnemonics (R106, R114). -/
def mnemonicTable : List (List Char × Mnemonic) :=
  [(['S', 'B', 'O', 'X'], .command .sbox),
    (['S', 'B', 'O', 'X', 'I', 'N', 'V'], .command .sboxInv),
    (['S', 'U', 'B'], .command .sub),
    (['S', 'U', 'B', 'I', 'N', 'V'], .command .subInv),
    (['P', 'E', 'R', 'M'], .command .perm),
    (['P', 'E', 'R', 'M', 'I', 'N', 'V'], .command .permInv),
    (['E', 'N', 'C'], .command .enc),
    (['D', 'E', 'C'], .command .dec),
    (['S', 'A', 'C'], .command .sac),
    (['B', 'I', 'C'], .command .bic),
    (['R', 'O', 'U', 'N', 'D'], .round),
    (['I', 'N', 'V', 'R', 'O', 'U', 'N', 'D'], .invRound),
    (['A', 'V', 'A', 'L'], .aval),
    (['R', 'T', 'R', 'I', 'P'], .rtrip)]

/-- `MNEMONIC operands`: one operand, or `rounds, operand` (R111). -/
def parseLine (cs : List Char) : Option AsmLine :=
  let word := cs.takeWhile fun c => !isBlank c
  let operands := (splitCommas (cs.dropWhile fun c => !isBlank c)).map fun p => literal (trimBlanks p)
  match mnemonicTable.find? (fun p => p.1 == word), operands with
  | some (_, m), [some x] => some { mnemonic := m, rounds := none, operand := x }
  | some (_, m), [some r, some x] => some { mnemonic := m, rounds := some r, operand := x }
  | _, _ => none

/-- The host lines of one line of assembler text; an empty line and a comment are none of them. -/
def assembleText (cs : List Char) : Option (List HostLine) :=
  let text := trimBlanks (dropComment cs)
  if text.isEmpty then some [] else (parseLine text).bind expandLine

end Sys2Proof.Machine
end

