-- ==== Sys2Proof/Machine/BicReal.lean ====
section
/-! DEFINITION. The correlation and the score of 44_bic.md as the exact reals the spec writes them (R200, R202). The
machine does not use this file: it is what the statements hold its integer arithmetic against. -/

namespace Sys2Proof.Machine

/-- `r[j][k]`, the correlation of columns j and k, from the Gram matrix (R200). -/
noncomputable def correlation (g : BicMatrix) (j k : Fin 16) : ℝ :=
  if j = k then 1
  else if columnVariance g j = 0 ∨ columnVariance g k = 0 then 0
  else
    (16 * (gramAt g j k : ℝ) - columnCount g j * columnCount g k)
      / √((columnVariance g j : ℝ) * columnVariance g k)

/-- `BIC_exact`: the mean of |r[j][k]| over the 240 entries off the diagonal (R202). -/
noncomputable def bicExact (g : BicMatrix) : ℝ :=
  (1 / 240) * ∑ j : Fin 16, ∑ k : Fin 16, if j = k then 0 else |correlation g j k|

end Sys2Proof.Machine
end

