-- ==== Sys2Proof/Machine/Framing.lean ====
section
/-! DEFINITION. What the host does with the words of the core, functions outside it: the framing of text into blocks
(20_memory.md R81, R82; 00_scope.md R5), the byte lanes of a word (20_memory.md R80), and what the fixed-point registers
stand for (43_sac.md R190, 44_bic.md R203). -/

namespace Sys2Proof.Machine

/-- `block = (b0 << 8) | b1`: two text bytes in big-endian order (R81). -/
def blockOfBytes (b0 b1 : BitVec 8) : Block := b0 ++ b1

/-- The byte of the space character (R82). -/
def spaceByte : BitVec 8 := 0x20

/-- A text of odd length gets one space byte at its end (R82). -/
def padText (text : List (BitVec 8)) : List (BitVec 8) :=
  if text.length % 2 = 1 then text ++ [spaceByte] else text

/-- The blocks of a text of even length, the k-th from bytes 2k and 2k+1 (R82). -/
def blocksOfBytes : List (BitVec 8) → List Block
  | b0 :: b1 :: rest => blockOfBytes b0 b1 :: blocksOfBytes rest
  | [_] => []
  | [] => []

/-- The blocks of a text: padded, then split (R81, R82). -/
def frameText (text : List (BitVec 8)) : List Block := blocksOfBytes (padText text)

/-- Byte lane b of a register word on a byte-addressed host bus: bits [8b+7:8b] (R80). -/
def byteLane (w : Word) (b : Fin 4) : BitVec 8 := w.extractLsb' (8 * b.val) 8

/-- The percentage that a word read from SAC_PCT stands for: 6 fraction bits (10_state.md R40, 43_sac.md R190). -/
def percentOfWord (w : Word) : ℚ := (w.toNat : ℚ) / 64

/-- The score that a word read from BIC_SCORE stands for: 30 fraction bits (10_state.md R41, 44_bic.md R203). -/
def scoreOfWord (w : Word) : ℚ := (w.toNat : ℚ) / 2 ^ 30

end Sys2Proof.Machine
end

