-- ==== Sys2Proof/Machine/Parameters.lean ====
section
/-! DEFINITION. The machine of any configuration (00_scope.md R8, R11; 93_implementation_defined.md U10): the same
meanings and the same step with the configuration as an argument, and elaboration, which refuses tables that are no
bijections. -/

namespace Sys2Proof.Machine

/-- The meaning of each command under a configuration. -/
def execWith (cfg : Config) (i : Instr) (s : State) : Host.Outcome State Fault Refusal :=
  match i with
  | .sbox v => .next (sboxWith cfg v s)
  | .sboxInv v => .next (sboxInvWith cfg v s)
  | .sub x => .next (subWith cfg x s)
  | .subInv x => .next (subInvWith cfg x s)
  | .perm x => .next (permWith cfg x s)
  | .permInv x => .next (permInvWith cfg x s)
  | .enc r x => .next (encWith cfg r x s)
  | .dec r x => .next (decWith cfg r x s)
  | .sac r b => .next (sacWith cfg r b s)
  | .bic r b => .next (bicWith cfg r b s)

/-- One step under a configuration. -/
def stepWith (cfg : Config) (s : State) : Host.Outcome State Fault Refusal :=
  stepOf cfg (execWith cfg) s

/-- The machine of a configuration. -/
def coreWith (cfg : Config) : Host.Core where
  State := State
  Fault := Fault
  Refusal := Refusal
  step := stepWith cfg
  reset := State.reset

/-- Elaboration: tables that fail the check of R11 are refused and no machine is built; the others give the machine of
their configuration, the inverses computed once (R10, R11, R253). -/
def elaborate (t : Tables) : Except Refusal Host.Core :=
  if Tables.areValid t then .ok (coreWith (configOf t)) else .error .invalidTables

end Sys2Proof.Machine
end

