-- ==== Sys2Proof/Safety.lean ====
section
/-! DEFINITION. What every state of a run is like, in the terms the statements use: STATUS says what became of the word
in CMD (10_state.md R35, R46; 60_exceptions.md R221), and the evaluator registers hold the results of some SAC and BIC
commands, within their ranges (10_state.md R38 to R45, R50). -/

namespace Sys2Proof.Machine

/-- The four STATUS invariants of R35. "Only after reset and before the first accepted command" is: the core is still as
reset left it. -/
structure StatusConsistent (a : Arch) : Prop where
  /-- BUSY = 1 implies DONE = 0, ERR = 0 and ECODE = 0. -/
  busy : a.pending ≠ none → a.done = false ∧ a.err = false ∧ a.ecode = 0
  /-- ERR = 1 if and only if ECODE ≠ 0. -/
  error : a.err = true ↔ a.ecode ≠ 0
  /-- ERR = 1 implies DONE = 1 and BUSY = 0. -/
  errorDone : a.err = true → a.done = true ∧ a.pending = none
  /-- BUSY = 0 and DONE = 0 together hold only after reset and before the first accepted command. -/
  fresh : a.pending = none → a.done = false → a = Arch.reset

/-- STATUS and PENDING describe the word in CMD, the last accepted one. -/
structure CommandRecorded (a : Arch) : Prop where
  /-- The pending command is the one the word in CMD decodes to (R46, R77). -/
  pendingDecoded : ∀ i, a.pending = some i → decode a.cmd = .ok i
  /-- A recorded error is the one of the word in CMD (R221). -/
  errorDecoded : a.err = true → ∃ e, decode a.cmd = .error e ∧ a.ecode = e.code
  /-- A command that finished without an error was a valid one (R77, R84). -/
  doneDecoded : a.done = true → a.err = false → ∃ i, decode a.cmd = .ok i

/-- The registers stay in the ranges of R50, and the Gram matrix keeps the properties of R197. -/
structure RegistersInRange (a : Arch) : Prop where
  sacSum : a.sacSum.toNat ≤ 256
  bicScore : a.bicScore.toNat ≤ 2 ^ 30
  gram : ∀ j k, gramAt a.gram j k ≤ 16
  gramSymmetric : ∀ j k, gramAt a.gram j k = gramAt a.gram k j
  gramDiagonal : ∀ j k, gramAt a.gram j k ≤ columnCount a.gram j

/-- The evaluator registers hold their reset values or the results of commands: ORIG and TRIAL of one sample, SAC_SUM of
one sample, and the BIC registers of one sample; the three may differ (R259). -/
structure EvaluatorCoherent (a : Arch) : Prop where
  sample : (a.orig = 0 ∧ a.trial = Vector.replicate 16 0) ∨
    ∃ (b : Block) (r : RoundCount), r ≠ 0 ∧ a.orig = sampleOrig defaultConfig b r.toNat ∧
      a.trial = sampleTrials defaultConfig b r.toNat
  sac : a.sacSum = 0 ∨
    ∃ (b : Block) (r : RoundCount), r ≠ 0 ∧
      a.sacSum.toNat = sacSumOf (sampleOrig defaultConfig b r.toNat)
        (sampleTrials defaultConfig b r.toNat)
  bic : (a.gram = Arch.reset.gram ∧ a.bicZv = 0 ∧ a.bicScore = 0) ∨
    ∃ (b : Block) (r : RoundCount), r ≠ 0 ∧
      a.gram = gramOf (sampleTrials defaultConfig b r.toNat) ∧
      a.bicZv = zeroVarianceMask a.gram ∧ a.bicScore.toNat = bicScoreOf a.gram

/-- The state in which a command has just completed, the registers otherwise as in `a` (20_memory.md R84). -/
def completedAs (a : Arch) (s : State) : State :=
  { s with arch := { a with pending := none, done := true, err := false, ecode := 0 } }

/-- The state in which a command has just ended in the command error of code `e`, the registers otherwise as in `a`
(60_exceptions.md R225). -/
def failedAs (e : BitVec 4) (a : Arch) (s : State) : State :=
  { s with arch := { a with pending := none, done := true, err := true, ecode := e } }

/-- A transaction has returned `r`, and nothing else has changed. -/
def answered (r : Response) (s : State) : State := { s with responses := r :: s.responses }

/-- An address of no register: not a multiple of 4, or in 0x080 to 0x0FF (20_memory.md R73, R74). -/
abbrev badAddress (addr : Addr) : Prop :=
  addr.toNat % 4 ≠ 0 ∨ (0x080 ≤ addr.toNat ∧ addr.toNat < 0x100)

/-- A command on a block followed by another on its result gives the block back, from any state. -/
def UndoneBy (cfg : Config) (first second : Block → Instr) : Prop :=
  ∀ (x : Block) (s : State), ∃ t u,
    execWith cfg (first x) s = .next t ∧ execWith cfg (second t.arch.result) t = .next u ∧
      u.arch.result = x

/-- A state whose next event is `e`, the rest of its schedule after it. -/
def scheduled (e : Event) (s : State) : State := { s with schedule := e :: s.schedule }

/-- The engine's turn comes next: it is scheduled, or nothing is. -/
def engineIsNext (s : State) : Bool :=
  match s.schedule with
  | [] => true
  | .engine :: _ => true
  | .busRead _ _ :: _ => false
  | .busWrite _ _ _ :: _ => false
  | .reset :: _ => false

/-- Reset comes next. -/
def resetIsNext (s : State) : Bool :=
  match s.schedule with
  | [] => false
  | .engine :: _ => false
  | .busRead _ _ :: _ => false
  | .busWrite _ _ _ :: _ => false
  | .reset :: _ => true

/-- The next event is a write that the port accepts: a word to CMD of an idle core (R77). -/
def acceptanceIsNext (s : State) : Bool :=
  match s.schedule with
  | [] => false
  | .engine :: _ => false
  | .busRead _ _ :: _ => false
  | .busWrite addr _ size :: _ =>
    regAt addr == some .cmd && size == .single 32 && s.arch.pending.isNone
  | .reset :: _ => false

end Sys2Proof.Machine
end

