-- ==== Sys2Proof/Certificates/Slice0/Obligations.lean ====
section
/-! DEFINITION. The statements for the provers. Each says which rule of spec/ it formalises. -/

namespace Sys2Proof.Machine

/-- The forward S-box as the spec lists it (40_substitution.md R139). -/
def listedSbox : List Nat := [3, 15, 14, 1, 13, 8, 11, 6, 4, 10, 7, 12, 2, 9, 5, 0]

/-- The inverse S-box as the spec lists it (R139). -/
def listedSboxInv : List Nat := [15, 3, 12, 0, 8, 14, 7, 10, 5, 13, 9, 6, 11, 4, 2, 1]

/-- The permutation as the spec lists it (00_scope.md R9). -/
def listedPerm : List Nat := [0, 4, 8, 12, 1, 5, 9, 13, 2, 6, 10, 14, 3, 7, 11, 15]

/-- The nibble that a listed table gives for four bits of a block, from bit `lo` up. -/
def listedNibble (table : List Nat) (x : Block) (lo : Nat) : Nibble :=
  BitVec.ofNat 4 (table.getD (x.toNat / 2 ^ lo % 16) 0)

/-- The match value of a row of the opcode table. -/
def tableMatch : Opcode → Word
  | .sbox => 0x10000000
  | .sboxInv => 0x20000000
  | .sub => 0x30000000
  | .subInv => 0x40000000
  | .perm => 0x50000000
  | .permInv => 0x60000000
  | .enc => 0x70000000
  | .dec => 0x80000000
  | .sac => 0x90000000
  | .bic => 0xA0000000

/-- The mask value of a row of the opcode table. -/
def tableMask : Opcode → Word
  | .sbox => 0xFFFFFFF0
  | .sboxInv => 0xFFFFFFF0
  | .sub => 0xFFFF0000
  | .subInv => 0xFFFF0000
  | .perm => 0xFFFF0000
  | .permInv => 0xFFFF0000
  | .enc => 0xFF000000
  | .dec => 0xFF000000
  | .sac => 0xFF000000
  | .bic => 0xFF000000

/-- The offsets of the write set of an operation (20_memory.md R91 with the map of R71). -/
def listedWriteSet (op : Opcode) (offset : Nat) : Bool :=
  match op with
  | .sac => offset == 0x00C || offset == 0x010 || offset == 0x014 || (0x040 ≤ offset && offset ≤ 0x07C)
  | .bic =>
    offset == 0x00C || offset == 0x018 || offset == 0x01C || (0x040 ≤ offset && offset ≤ 0x07C)
      || (0x100 ≤ offset && offset ≤ 0x1FC)
  | _ => offset == 0x008

end Sys2Proof.Machine

open Sys2Proof Sys2Proof.Machine

/-! ## The commands -/

/-- 40_substitution.md R133, R134 with the tables of R139. SBOX and SBOXINV complete in every state, with the entry of
their table, zero-extended, in RESULT, and change nothing else but STATUS and PENDING. -/
def Obligations.NibbleSubstitutionFillsResult : Prop :=
  ∀ (v : Nibble) (s : State),
    exec (.sbox v) s =
        .next (completedAs { s.arch with result := BitVec.ofNat 16 (listedSbox.getD v.toNat 0) } s) ∧
      exec (.sboxInv v) s =
        .next (completedAs { s.arch with result := BitVec.ofNat 16 (listedSboxInv.getD v.toNat 0) } s)

/-- 40_substitution.md R131, R135, R136 with the tables of R139. SUB and SUBINV complete in every state; each of the four
nibbles of RESULT is the entry for the nibble of the operand in the same place; nothing else changes but STATUS and
PENDING. -/
def Obligations.BlockSubstitutionWorksLaneByLane : Prop :=
  ∀ (x : Block) (s : State),
    exec (.sub x) s =
        .next (completedAs
          { s.arch with
            result := listedNibble listedSbox x 12 ++ listedNibble listedSbox x 8
              ++ listedNibble listedSbox x 4 ++ listedNibble listedSbox x 0 } s) ∧
      exec (.subInv x) s =
        .next (completedAs
          { s.arch with
            result := listedNibble listedSboxInv x 12 ++ listedNibble listedSboxInv x 8
              ++ listedNibble listedSboxInv x 4 ++ listedNibble listedSboxInv x 0 } s)

/-- 41_permutation.md R150, R152, R153 with the table of 00_scope.md R9. PERM completes in every state with bit i of the
operand at bit PERM[i] of RESULT; PERMINV with bit PERM[j] of the operand at bit j; nothing else changes but STATUS and
PENDING. -/
def Obligations.BitPermutationMovesEachBit : Prop :=
  ∀ (x : Block) (s : State),
    (∃ y : Block, (∀ i : Fin 16, y.getLsbD (listedPerm.getD i.val 0) = x.getLsbD i.val) ∧
        exec (.perm x) s = .next (completedAs { s.arch with result := y } s)) ∧
      ∃ y : Block, (∀ j : Fin 16, y.getLsbD j.val = x.getLsbD (listedPerm.getD j.val 0)) ∧
        exec (.permInv x) s = .next (completedAs { s.arch with result := y } s)

/-- 42_round_cipher.md R165 to R170. For a round count 1 to 255 ENC and DEC complete in every state, with the round (the
inverse round) applied that many times in RESULT; nothing else changes but STATUS and PENDING. -/
def Obligations.CipherCommandsIterateTheRound : Prop :=
  ∀ (r : RoundCount) (x : Block) (s : State), r ≠ 0 →
    exec (.enc r x) s =
        .next (completedAs
          { s.arch with
            result := (fun y => perm16 (sub16 y defaultConfig.sbox) defaultConfig.perm)^[r.toNat] x } s) ∧
      exec (.dec r x) s =
        .next (completedAs
          { s.arch with
            result := (fun y => sub16 (perm16 y defaultConfig.permInv) defaultConfig.sboxInv)^[r.toNat] x } s)

/-- 43_sac.md R180 to R184. For a round count 1 to 255 SAC completes in every state: ORIG is the ciphertext of the base
block, TRIAL[i] that of the base block with bit i flipped, SAC_SUM the exact number of bits in which the trials differ
from ORIG; nothing else changes but STATUS and PENDING. -/
def Obligations.SacFillsTheSampleAndTheSum : Prop :=
  ∀ (r : RoundCount) (b : Block) (s : State), r ≠ 0 →
    ∃ (o : Block) (t : Vector Block 16) (n : BitVec 9),
      o = encrypt defaultConfig b r.toNat ∧
        (∀ i : Fin 16, t[i] = encrypt defaultConfig (b ^^^ ((1 : Block) <<< i.val)) r.toNat) ∧
        n.toNat = ∑ i : Fin 16, ∑ j : Fin 16, ((o ^^^ t[i]).getLsbD j.val).toNat ∧
        exec (.sac r b) s =
          .next (completedAs { s.arch with orig := o, trial := t, sacSum := n } s)

/-- 44_bic.md R195 to R204. For a round count 1 to 255 BIC completes in every state: ORIG and TRIAL are the sample, entry
(j, k) of BIC_GRAM counts the trials with both bits set, BIC_ZV marks the columns with no or all ones, and BIC_SCORE is
the floor of the exact real score times 2^30; nothing else changes but STATUS and PENDING. -/
def Obligations.BicFillsTheMatrixAndTheExactScore : Prop :=
  ∀ (r : RoundCount) (b : Block) (s : State), r ≠ 0 →
    ∃ (o : Block) (t : Vector Block 16) (g : BicMatrix) (z : Block) (n : BitVec 31),
      o = encrypt defaultConfig b r.toNat ∧
        (∀ i : Fin 16, t[i] = encrypt defaultConfig (b ^^^ ((1 : Block) <<< i.val)) r.toNat) ∧
        (∀ j k : Fin 16, ((g[j])[k]).toNat =
          ∑ i : Fin 16, ((t[i]).getLsbD j.val).toNat * ((t[i]).getLsbD k.val).toNat) ∧
        (∀ j : Fin 16, z.getLsbD j.val = true ↔
          ((g[j])[j]).toNat = 0 ∨ ((g[j])[j]).toNat = 16) ∧
        (n.toNat : ℤ) = ⌊bicExact g * 2 ^ 30⌋ ∧
        exec (.bic r b) s =
          .next (completedAs
            { s.arch with orig := o, trial := t, gram := g, bicZv := z, bicScore := n } s)

/-- 42_round_cipher.md R165, R166. ENC 1 leaves the core as SUB followed by PERM of its result does, and DEC 1 as PERMINV
followed by SUBINV does. -/
def Obligations.OneRoundIsSubstitutionThenPermutation : Prop :=
  ∀ (x : Block) (s : State),
    (∃ t u, exec (.sub x) s = .next t ∧ exec (.perm t.arch.result) t = .next u ∧
        exec (.enc 1 x) s = .next u) ∧
      ∃ t u, exec (.permInv x) s = .next t ∧ exec (.subInv t.arch.result) t = .next u ∧
        exec (.dec 1 x) s = .next u

/-- 30_encoding.md R109: the error, taken by the command itself. With ROUNDS = 0, each of ENC, DEC, SAC and BIC ends in
the command error of code 3 and writes no result. That `exec` says so of a command no valid word stands for is the
model's choice (notes/assumptions/13.md). -/
def Obligations.ZeroRoundsEndsInTheRoundsError : Prop :=
  ∀ (x : Block) (s : State),
    exec (.enc 0 x) s = .next (failedAs 3 s.arch s) ∧ exec (.dec 0 x) s = .next (failedAs 3 s.arch s) ∧
      exec (.sac 0 x) s = .next (failedAs 3 s.arch s) ∧ exec (.bic 0 x) s = .next (failedAs 3 s.arch s)

/-- 20_memory.md R91. No completion changes a register outside its operation's write set, STATUS aside; the write sets
are those the table of R91 lists. -/
def Obligations.CompletionKeepsRegistersOutsideItsWriteSet : Prop :=
  (∀ (op : Opcode) (r : Reg), inWriteSetOf op r = listedWriteSet op r.offset.toNat) ∧
    ∀ (i : Instr) (s : State), i.WellFormed → ∃ t, exec i s = .next t ∧
      t.schedule = s.schedule ∧ t.responses = s.responses ∧ t.draws = s.draws ∧
      ∀ r : Reg, r ≠ .status → listedWriteSet i.opcode r.offset.toNat = false →
        regWord defaultConfig t.arch r = regWord defaultConfig s.arch r

/-! ## Encoding -/

/-- 30_encoding.md R116, whole: encoding is the inverse of decoding on valid words, with the number the word is. -/
def Obligations.DecodeInvertsEncode : Prop :=
  (∀ i : Instr, i.WellFormed →
      decode (encode i) = .ok i ∧
        (encode i).toNat = i.opcode.bits.toNat * 2 ^ 28 + i.rounds.toNat * 2 ^ 16 + i.data.toNat) ∧
    ∀ (w : Word) (i : Instr), decode w = .ok i → i.WellFormed ∧ encode i = w

/-- 30_encoding.md R105, whole: the checks in their order, on the fields as numbers. -/
def Obligations.DecodeChecksInOrder : Prop :=
  ∀ w : Word,
    let op := w.toNat / 2 ^ 28
    let rsv := w.toNat / 2 ^ 24 % 16
    let rnd := w.toNat / 2 ^ 16 % 256
    let d := w.toNat % 2 ^ 16
    if op = 0 ∨ 0xA < op then decode w = .error .illegal
    else if rsv ≠ 0 then decode w = .error .reserved
    else if op ≤ 2 ∧ d / 16 ≠ 0 then decode w = .error .reserved
    else if op ≤ 6 ∧ rnd ≠ 0 then decode w = .error .reserved
    else if 7 ≤ op ∧ rnd = 0 then decode w = .error .rounds
    else
      ∃ i, decode w = .ok i ∧ i.opcode.bits.toNat = op ∧ i.rounds.toNat = rnd ∧ i.data.toNat = d

/-- 60_exceptions.md R221: the codes written to STATUS.ECODE, and which words each is recorded for, at acceptance by an
idle core. Codes 4 to 15 are never written. -/
def Obligations.ErrorCodesOfIllegalReservedAndRounds : Prop :=
  ∀ (s : State) (v : Word), s.arch.pending = none →
    ∃ t, step (scheduled (.busWrite 0x000 v (.single 32)) s) = .next t ∧ t.arch.cmd = v ∧
      (t.arch.ecode = 1 ↔ v.toNat / 2 ^ 28 = 0 ∨ 0xB ≤ v.toNat / 2 ^ 28) ∧
      (t.arch.ecode = 0 ∨ t.arch.ecode = 1 ∨ t.arch.ecode = 2 ∨ t.arch.ecode = 3) ∧
      (t.arch.ecode = 0 ↔ ∃ i, decode v = .ok i) ∧
      (t.arch.ecode = 2 ↔ decode v = .error .reserved) ∧
      (t.arch.ecode = 3 ↔ decode v = .error .rounds)

/-- The rows of spec/opcode_table.json: a word meets the match and mask of a row exactly when `decodeRow` reads that
row's operation from it; and the instruction it reads is the valid one unless its round count is 0 (R109). That
`decodeRow` and `decodeTableWord` read an instruction from a word of ENC, DEC, SAC or BIC with ROUNDS = 0 at all is the
model's choice (DESIGN CHOICE, notes/assumptions/12.md). -/
def Obligations.RowsMeetMatchAndMask : Prop :=
  (∀ (w : Word) (op : Opcode),
      w &&& tableMask op = tableMatch op ↔ ∃ i, decodeRow w = some i ∧ i.opcode = op) ∧
    (∀ w : Word, decodeTableWord 32 w.toNat = decodeRow w) ∧
    ∀ (w : Word) (i : Instr), decodeRow w = some i →
      if i.WellFormed then decode w = .ok i else decode w = .error .rounds

/-- Words of 30_encoding.md R111 and 95_test_vectors.md section 2, and what they decode to. -/
def Obligations.ListedWordsDecodeAsTheSpecSays : Prop :=
  decode 0x10000007 = .ok (.sbox 7) ∧ decode 0x2000000D = .ok (.sboxInv 13) ∧
    decode 0x3000FFFF = .ok (.sub 0xFFFF) ∧ decode 0x4000D4BA = .ok (.subInv 0xD4BA) ∧
    decode 0x50004869 = .ok (.perm 0x4869) ∧ decode 0x60005A21 = .ok (.permInv 0x5A21) ∧
    decode 0x70044869 = .ok (.enc 4 0x4869) ∧ decode 0x80FF0000 = .ok (.dec 255 0x0000) ∧
    decode 0x90FFFFFF = .ok (.sac 255 0xFFFF) ∧ decode 0xA0014869 = .ok (.bic 1 0x4869) ∧
    decode 0x71004869 = .error .reserved ∧ decode 0x00000000 = .error .illegal

/-! ## The register port -/

/-- 20_memory.md R71. The offsets of the map, and the port finds a register exactly at its offset: an address of no
register is one that is misaligned or in 0x080 to 0x0FF. -/
def Obligations.AddressMapPlacesEachRegister : Prop :=
  (Reg.cmd.offset = 0x000 ∧ Reg.status.offset = 0x004 ∧ Reg.result.offset = 0x008 ∧
      Reg.orig.offset = 0x00C ∧ Reg.sacSum.offset = 0x010 ∧ Reg.sacPct.offset = 0x014 ∧
      Reg.bicScore.offset = 0x018 ∧ Reg.bicZv.offset = 0x01C) ∧
    (∀ k : Fin 8, (Reg.config k).offset.toNat = 0x020 + 4 * k.val) ∧
    (∀ i : Fin 16, (Reg.trial i).offset.toNat = 0x040 + 4 * i.val) ∧
    (∀ m : Fin 64, (Reg.bicGram m).offset.toNat = 0x100 + 4 * m.val) ∧
    (∀ (addr : Addr) (r : Reg), regAt addr = some r ↔ addr = r.offset) ∧
    ∀ addr : Addr, regAt addr = none ↔ badAddress addr

/-- 20_memory.md R75 with the write sets of R91: what a read returns, in the order of the checks, and that it changes no
state of the core. R75 and R76 let a read of the pending write set return any 32-bit word; that the word is the next free
one, `Config.freeWord` at the counter `draws`, and that the read is counted, is the form the model chose (DESIGN CHOICE,
notes/assumptions/3.md). Nothing is said of the word's value. What `regWord` is for each register is
said by the statements of the next section. -/
def Obligations.BusReadAnswersAndChangesNothing : Prop :=
  ∀ (s : State) (addr : Addr) (size : AccessSize),
    if size ≠ .single 32 then
      step (scheduled (.busRead addr size) s) = .next (answered (.busError .size) s)
    else if badAddress addr then
      step (scheduled (.busRead addr size) s) = .next (answered (.busError .addr) s)
    else if ∃ i, s.arch.pending = some i ∧ listedWriteSet i.opcode addr.toNat = true then
      step (scheduled (.busRead addr size) s) =
        .next (answered (.data (Config.freeWord s.draws)) { s with draws := s.draws + 1 })
    else
      ∃ r : Reg, r.offset = addr ∧
        step (scheduled (.busRead addr size) s) =
          .next (answered (.data (regWord defaultConfig s.arch r)) s)

/-- 20_memory.md R77, whole: the checks of a write in their order, and the acceptance of a command word. -/
def Obligations.BusWriteAcceptsOnlyWordsToCmd : Prop :=
  ∀ (s : State) (addr : Addr) (v : Word) (size : AccessSize),
    step (scheduled (.busWrite addr v size) s) =
      .next
        (if size ≠ .single 32 then answered (.busError .size) s
        else if badAddress addr then answered (.busError .addr) s
        else if addr ≠ 0x000 then answered (.busError .ro) s
        else if s.arch.pending ≠ none then answered (.busError .busy) s
        else
          match decode v with
          | .error e =>
            answered .written
              { s with
                arch := { s.arch with cmd := v, done := true, err := true, ecode := e.code } }
          | .ok i =>
            answered .written
              { s with
                arch :=
                  { s.arch with
                    cmd := v, pending := some i, done := false, err := false, ecode := 0 } })

/-- 20_memory.md R79. A transaction that returns a bus error changes no state of the core. -/
def Obligations.BusErrorChangesNoState : Prop :=
  ∀ (s t : State) (e : Event) (k : BusErrorKind),
    step (scheduled e s) = .next t → t.responses = .busError k :: s.responses → t.arch = s.arch

/-- 60_exceptions.md R225. A command error writes CMD and STATUS at acceptance and nothing else, and no engine step
follows. -/
def Obligations.CommandErrorIsPrecise : Prop :=
  ∀ (s : State) (v : Word) (e : CmdError), s.arch.pending = none → decode v = .error e →
    ∃ t, step (scheduled (.busWrite 0x000 v (.single 32)) s) = .next t ∧
      t.arch = { s.arch with cmd := v, pending := none, done := true, err := true, ecode := e.code } ∧
      step (scheduled .engine t) = .next t

/-- 60_exceptions.md R227. The error status stays until the next accepted CMD write or reset. The premise is the STATUS
invariant of R35. -/
def Obligations.ErrorStatusStaysUntilAcceptanceOrReset : Prop :=
  ∀ s t : State, StatusConsistent s.arch → s.arch.err = true → step s = .next t →
    acceptanceIsNext s = false → resetIsNext s = false →
    t.arch.err = true ∧ t.arch.done = true ∧ t.arch.ecode = s.arch.ecode ∧ t.arch.cmd = s.arch.cmd

/-! ## The registers -/

/-- 10_state.md R34. The fields of the STATUS word, with 0 in its reserved bits. -/
def Obligations.StatusWordHoldsItsFields : Prop :=
  ∀ a : Arch,
    (regWord defaultConfig a .status).toNat =
      a.pending.isSome.toNat + 2 * a.done.toNat + 4 * a.err.toNat + 16 * a.ecode.toNat

/-- 10_state.md R40. SAC_PCT is SAC_SUM * 25 and SAC_PCT / 64 is SAC_SUM * 100 / 256 exactly, in 0 to 6400,
at offset 0x014, and 0 after reset. The premise is the range of SAC_SUM, an invariant stated on its own. -/
def Obligations.SacPercentIsTheExactPercentage : Prop :=
  ∀ a : Arch, a.sacSum.toNat ≤ 256 →
    let pct := (regWord defaultConfig a .sacPct).toNat
    pct = a.sacSum.toNat * 25 ∧ pct ≤ 6400 ∧ (pct : ℚ) / 64 = (a.sacSum.toNat : ℚ) * 100 / 256 ∧
      regWord defaultConfig State.reset.arch .sacPct = 0 ∧ Reg.sacPct.offset = 0x014

/-- 10_state.md R43. The configuration words: their packing for every configuration, their values for this one in every
state, their offsets, and that a write to one is refused. -/
def Obligations.ConfigurationReadsBackTheTables : Prop :=
  (∀ (cfg : Config) (a : Arch) (k : Fin 8),
      (regWord cfg a (.config 0)).extractLsb' (4 * k.val) 4 = cfg.sbox[k.val] ∧
        (regWord cfg a (.config 1)).extractLsb' (4 * k.val) 4 = cfg.sbox[8 + k.val] ∧
        (regWord cfg a (.config 2)).extractLsb' (4 * k.val) 4 = cfg.sboxInv[k.val] ∧
        (regWord cfg a (.config 3)).extractLsb' (4 * k.val) 4 = cfg.sboxInv[8 + k.val] ∧
        (regWord cfg a (.config 4)).extractLsb' (4 * k.val) 4 = cfg.perm[k.val] ∧
        (regWord cfg a (.config 5)).extractLsb' (4 * k.val) 4 = cfg.perm[8 + k.val] ∧
        (regWord cfg a (.config 6)).extractLsb' (4 * k.val) 4 = cfg.permInv[k.val] ∧
        (regWord cfg a (.config 7)).extractLsb' (4 * k.val) 4 = cfg.permInv[8 + k.val]) ∧
    (∀ a : Arch,
      regWord defaultConfig a (.config 0) = 0x6B8D1EF3 ∧
        regWord defaultConfig a (.config 1) = 0x0592C7A4 ∧
        regWord defaultConfig a (.config 2) = 0xA7E80C3F ∧
        regWord defaultConfig a (.config 3) = 0x124B69D5 ∧
        regWord defaultConfig a (.config 4) = 0xD951C840 ∧
        regWord defaultConfig a (.config 5) = 0xFB73EA62 ∧
        regWord defaultConfig a (.config 6) = 0xD951C840 ∧
        regWord defaultConfig a (.config 7) = 0xFB73EA62) ∧
    ∀ (s : State) (k : Fin 8) (v : Word),
      (Reg.config k).offset.toNat = 0x020 + 4 * k.val ∧
        step (scheduled (.busWrite (Reg.config k).offset v (.single 32)) s) =
          .next (answered (.busError .ro) s)

/-- 10_state.md R45. Entry G[j][k] is read at offset 0x100 + 16·j + 4·(k div 4), in the low five bits of byte lane
k mod 4, and the three bits above it read 0; every entry is 0 after reset. -/
def Obligations.GramEntriesAreReadInByteLanes : Prop :=
  ∀ (a : Arch) (j k : Fin 16),
    ∃ m : Fin 64, (Reg.bicGram m).offset.toNat = 0x100 + 16 * j.val + 4 * (k.val / 4) ∧
      (regWord defaultConfig a (.bicGram m)).extractLsb' (8 * (k.val % 4)) 5 = (a.gram[j])[k] ∧
      (regWord defaultConfig a (.bicGram m)).extractLsb' (8 * (k.val % 4) + 5) 3 = 0 ∧
      (State.reset.arch.gram[j])[k] = 0

/-- 10_state.md R48. The reserved bits of every register read 0 in every state. And the word of each register that holds
one field reads as that field, unchanged and at bit 0: CMD (R33), RESULT (R37), ORIG (R38), SAC_SUM (R39), BIC_SCORE
(R41), BIC_ZV (R42) and each TRIAL[i] (R44). STATUS, SAC_PCT, the configuration words and BIC_GRAM have statements of
their own. -/
def Obligations.ReservedBitsReadZero : Prop :=
  ∀ a : Arch,
    regWord defaultConfig a .status &&& 0xFFFFFF08 = 0 ∧
      regWord defaultConfig a .result &&& 0xFFFF0000 = 0 ∧
      regWord defaultConfig a .orig &&& 0xFFFF0000 = 0 ∧
      regWord defaultConfig a .sacSum &&& 0xFFFFFE00 = 0 ∧
      regWord defaultConfig a .sacPct &&& 0xFFFFE000 = 0 ∧
      regWord defaultConfig a .bicScore &&& 0x80000000 = 0 ∧
      regWord defaultConfig a .bicZv &&& 0xFFFF0000 = 0 ∧
      (∀ i : Fin 16, regWord defaultConfig a (.trial i) &&& 0xFFFF0000 = 0) ∧
      (∀ m : Fin 64, regWord defaultConfig a (.bicGram m) &&& 0xE0E0E0E0 = 0) ∧
      regWord defaultConfig a .cmd = a.cmd ∧
      (regWord defaultConfig a .result).toNat = a.result.toNat ∧
      (regWord defaultConfig a .orig).toNat = a.orig.toNat ∧
      (regWord defaultConfig a .sacSum).toNat = a.sacSum.toNat ∧
      (regWord defaultConfig a .bicScore).toNat = a.bicScore.toNat ∧
      (regWord defaultConfig a .bicZv).toNat = a.bicZv.toNat ∧
      ∀ i : Fin 16, (regWord defaultConfig a (.trial i)).toNat = a.trial[i].toNat

/-! ## The laws of the cipher -/

/-- 40_substitution.md R137 with 00_scope.md R10: for every bijective table the positional inverse inverts it on both
sides; and the inverses of the default tables are the listed ones. -/
def Obligations.InverseTableInvertsTheTable : Prop :=
  (∀ t : Table, (∀ i j : Fin 16, t[i] = t[j] → i = j) →
      ∀ v : Nibble, tableAt (inverseTable t) (tableAt t v) = v ∧
        tableAt t (tableAt (inverseTable t) v) = v) ∧
    (∀ v : Nibble, (tableAt defaultConfig.sboxInv v).toNat = listedSboxInv.getD v.toNat 0) ∧
    ∀ v : Nibble, (tableAt defaultConfig.permInv v).toNat = listedPerm.getD v.toNat 0

/-- 40_substitution.md R138, for every valid configuration: SUBINV undoes SUB and SUB undoes SUBINV. -/
def Obligations.SubstitutionAndItsInverseUndoEachOther : Prop :=
  ∀ t : Tables, Tables.areValid t = true →
    UndoneBy (configOf t) .sub .subInv ∧ UndoneBy (configOf t) .subInv .sub

/-- 41_permutation.md R154, for every valid configuration: PERMINV undoes PERM and PERM undoes PERMINV. -/
def Obligations.PermutationAndItsInverseUndoEachOther : Prop :=
  ∀ t : Tables, Tables.areValid t = true →
    UndoneBy (configOf t) .perm .permInv ∧ UndoneBy (configOf t) .permInv .perm

/-- 41_permutation.md R155. The default permutation table is the 4×4 transpose, its own inverse; PERM undoes itself, and
PERMINV is PERM. -/
def Obligations.DefaultPermutationIsAnInvolution : Prop :=
  (∀ a b : Fin 4, (tableAt defaultConfig.perm (BitVec.ofNat 4 (4 * a.val + b.val))).toNat = 4 * b.val + a.val) ∧
    (∀ v : Nibble, tableAt defaultConfig.perm (tableAt defaultConfig.perm v) = v) ∧
    defaultConfig.permInv = defaultConfig.perm ∧
    UndoneBy defaultConfig .perm .perm ∧
    ∀ (x : Block) (s : State), exec (.permInv x) s = exec (.perm x) s

/-- 41_permutation.md R157. A permutation by a bijective table is linear and keeps the number of 1 bits. -/
def Obligations.PermutationIsLinear : Prop :=
  ∀ t : Table, isBijection t = true →
    (∀ x y : Block, perm16 (x ^^^ y) t = perm16 x t ^^^ perm16 y t ∧
        popcount (perm16 x t) = popcount x) ∧
      perm16 0 t = 0 ∧ perm16 0xFFFF t = 0xFFFF

/-- 41_permutation.md R158, its first sentence: with the default table, reversing the bits before and after PERM changes
nothing. -/
def Obligations.DefaultPermutationCommutesWithReversal : Prop :=
  ∀ x : Block, (perm16 x.reverse defaultConfig.perm).reverse = perm16 x defaultConfig.perm

/-- 42_round_cipher.md R171, the round-trip law, and R172, the other order: for every valid configuration, every block and every round
count 1 to 255, DEC gives back the block that ENC took, and ENC the one that DEC took. -/
def Obligations.DecryptionUndoesEncryption : Prop :=
  ∀ (t : Tables) (r : RoundCount), Tables.areValid t = true → r ≠ 0 →
    UndoneBy (configOf t) (.enc r) (.dec r) ∧ UndoneBy (configOf t) (.dec r) (.enc r)

/-- 42_round_cipher.md R175. Encryption and decryption are bijections on the blocks, inverse to each other. -/
def Obligations.EncryptionIsABijection : Prop :=
  ∀ (t : Tables) (r : Nat), Tables.areValid t = true → 1 ≤ r →
    Function.Bijective (fun x => encrypt (configOf t) x r) ∧
      Function.Bijective (fun x => decrypt (configOf t) x r) ∧
      (∀ x, decrypt (configOf t) (encrypt (configOf t) x r) r = x) ∧
      ∀ x, encrypt (configOf t) (decrypt (configOf t) x r) r = x

/-- 42_round_cipher.md R176. Two encryptions in a row are one of the sum of their rounds, where one command can carry the
sum; and so are two decryptions. -/
def Obligations.RoundCountsAdd : Prop :=
  ∀ (cfg : Config) (a b : RoundCount) (x : Block) (s : State), a ≠ 0 → b ≠ 0 → a.toNat + b.toNat ≤ 255 →
    (∃ t u, execWith cfg (.enc a x) s = .next t ∧ execWith cfg (.enc b t.arch.result) t = .next u ∧
        execWith cfg (.enc (a + b) x) s = .next u) ∧
      ∃ t u, execWith cfg (.dec a x) s = .next t ∧ execWith cfg (.dec b t.arch.result) t = .next u ∧
        execWith cfg (.dec (a + b) x) s = .next u

/-! ## The avalanche evaluator -/

/-- 43_sac.md R186, for every valid configuration: every Hamming distance is at least 1, and SAC leaves 16 ≤ SAC_SUM ≤ 256,
so 6.25 to 100 percent. -/
def Obligations.SacSumIsAtLeastSixteen : Prop :=
  ∀ (t : Tables) (r : RoundCount) (b : Block) (s : State), Tables.areValid t = true → r ≠ 0 →
    ∃ u, execWith (configOf t) (.sac r b) s = .next u ∧
      (∀ i : Fin 16, 1 ≤ popcount (u.arch.orig ^^^ u.arch.trial[i])) ∧
      16 ≤ u.arch.sacSum.toNat ∧ u.arch.sacSum.toNat ≤ 256 ∧
      (625 : ℚ) / 100 ≤ percentOfWord (regWord (configOf t) u.arch .sacPct) ∧
      percentOfWord (regWord (configOf t) u.arch .sacPct) ≤ 100

/-- 43_sac.md R187. The identity configuration is valid, while an all-zero S-box is refused; it encrypts every block to
itself, and gives every Hamming distance 1, SAC_SUM = 16 and 6.25 percent. -/
def Obligations.IdentityConfigurationGivesSumSixteen : Prop :=
  elaborate Tables.identity = .ok (coreWith identityConfig) ∧
    elaborate { Tables.identity with sbox := Vector.replicate 16 0 } = .error .invalidTables ∧
    ∀ (r : RoundCount) (b : Block) (s : State), r ≠ 0 →
      encrypt identityConfig b r.toNat = b ∧
        ∃ u, execWith identityConfig (.sac r b) s = .next u ∧
          (∀ i : Fin 16, popcount (u.arch.orig ^^^ u.arch.trial[i]) = 1) ∧
          u.arch.sacSum = 16 ∧
          percentOfWord (regWord identityConfig u.arch .sacPct) = 625 / 100

/-- 43_sac.md R188. SAC and BIC with the same base block and round count write the same ORIG and TRIAL, from any states. -/
def Obligations.SacAndBicWriteTheSameSample : Prop :=
  ∀ (r : RoundCount) (b : Block) (s s' : State), r ≠ 0 →
    ∃ t u, exec (.sac r b) s = .next t ∧ exec (.bic r b) s' = .next u ∧
      t.arch.orig = u.arch.orig ∧ t.arch.trial = u.arch.trial

/-- 44_bic.md R197. The Gram matrix of any 16 trials counts the trials with both bits set; it is symmetric, its diagonal
is the column count, and an entry is at most either column count. -/
def Obligations.GramMatrixIsSymmetricAndBounded : Prop :=
  ∀ (t : Vector Block 16) (j k : Fin 16),
    gramAt (gramOf t) j k = ∑ i : Fin 16, ((t[i]).getLsbD j.val).toNat * ((t[i]).getLsbD k.val).toNat ∧
      gramAt (gramOf t) j k ≤ 16 ∧
      gramAt (gramOf t) j k = gramAt (gramOf t) k j ∧
      gramAt (gramOf t) j j = ∑ i : Fin 16, ((t[i]).getLsbD j.val).toNat ∧
      gramAt (gramOf t) j k ≤ min (columnCount (gramOf t) j) (columnCount (gramOf t) k)

/-- 44_bic.md R201. Between columns of nonzero variance the correlation is the Pearson coefficient of the two columns:
the mean-centred dot product divided by the product of the centred norms; it is symmetric and lies in [-1, 1]. -/
def Obligations.CorrelationIsPearsons : Prop :=
  ∀ (t : Vector Block 16) (j k : Fin 16), j ≠ k →
    columnVariance (gramOf t) j ≠ 0 → columnVariance (gramOf t) k ≠ 0 →
    let m (i c : Fin 16) : ℝ := (((t[i]).getLsbD c.val).toNat : ℝ)
    let mean (c : Fin 16) : ℝ := (∑ i : Fin 16, m i c) / 16
    let r := correlation (gramOf t) j k
    r = (∑ i : Fin 16, (m i j - mean j) * (m i k - mean k))
          / (√(∑ i : Fin 16, (m i j - mean j) ^ 2) * √(∑ i : Fin 16, (m i k - mean k) ^ 2)) ∧
      -1 ≤ r ∧ r ≤ 1 ∧ r = correlation (gramOf t) k j

/-- 44_bic.md R205. Replacing every trial by its difference from any block leaves the variances, the absolute
correlations, BIC_ZV, the exact score and BIC_SCORE as they are. -/
def Obligations.ScoreIgnoresChangedBits : Prop :=
  ∀ (t : Vector Block 16) (o : Block),
    let g := gramOf t
    let g' := gramOf (t.map fun x => x ^^^ o)
    (∀ j : Fin 16, columnVariance g' j = columnVariance g j) ∧
      (∀ j k : Fin 16, |correlation g' j k| = |correlation g j k|) ∧
      zeroVarianceMask g' = zeroVarianceMask g ∧ bicExact g' = bicExact g ∧ bicScoreOf g' = bicScoreOf g

/-- 44_bic.md R206, for every configuration: the exact score of any 16 trials is in [0, 1], and BIC leaves BIC_SCORE at
most 2^30. -/
def Obligations.BicScoreIsAtMostOne : Prop :=
  (∀ t : Vector Block 16, 0 ≤ bicExact (gramOf t) ∧ bicExact (gramOf t) ≤ 1) ∧
    ∀ (cfg : Config) (r : RoundCount) (b : Block) (s : State), r ≠ 0 →
      ∃ u, execWith cfg (.bic r b) s = .next u ∧ u.arch.bicScore.toNat ≤ 2 ^ 30

/-- 44_bic.md R208. Under the identity configuration every column count is 1 or 15, every variance 15, every absolute
correlation off the diagonal 1/15, the exact score 1/15, and BIC_SCORE = 71582788. -/
def Obligations.IdentityConfigurationGivesOneFifteenth : Prop :=
  ∀ (r : RoundCount) (b : Block) (s : State), r ≠ 0 →
    ∃ u, execWith identityConfig (.bic r b) s = .next u ∧
      (∀ i : Fin 16, u.arch.trial[i] = b ^^^ ((1 : Block) <<< i.val)) ∧
      (∀ j : Fin 16, (columnCount u.arch.gram j = 1 ∨ columnCount u.arch.gram j = 15) ∧
        columnVariance u.arch.gram j = 15) ∧
      (∀ j k : Fin 16, j ≠ k → |correlation u.arch.gram j k| = 1 / 15) ∧
      bicExact u.arch.gram = 1 / 15 ∧ u.arch.bicScore = 71582788

/-! ## The whole machine -/

/-- 20_memory.md R84 with the model's schedule (notes/assumptions/1.md, 2.md): in the engine's turn, scheduled or because
nothing is left to happen, a step is the meaning of the pending command; with nothing pending it changes nothing. -/
def Obligations.EngineStepRunsThePendingCommand : Prop :=
  ∀ (s : State) (i : Instr),
    (s.arch.pending = some i → step (scheduled .engine s) = exec i s) ∧
      (s.arch.pending = some i → s.schedule = [] → step s = exec i s) ∧
      (s.arch.pending = none → step (scheduled .engine s) = .next s) ∧
      (s.arch.pending = none → s.schedule = [] → step s = .next s)

/-- A step runs the decoded command (30_encoding.md R105, 20_memory.md R77 and R84, with the model's placement of a word,
notes/assumptions/4.md): a valid word written to CMD of an idle core makes its command pending, and the engine's turn
then is that command's meaning; a word placed to run next is run by the very next step, as its command's meaning or as
the command error it decodes to. -/
def Obligations.StepRunsTheDecodedCommand : Prop :=
  (∀ (s : State) (w : Word) (i : Instr), s.arch.pending = none → decode w = .ok i →
      ∃ t, step (scheduled (.busWrite 0x000 w (.single 32)) s) = .next t ∧
        t.arch.cmd = w ∧ t.arch.pending = some i ∧ step (scheduled .engine t) = exec i t) ∧
    (∀ (s : State) (w : Word) (i : Instr), decode w = .ok i →
      ∃ t, step (s.withFetchWord 32 w.toNat) = exec i t ∧ t.schedule = s.schedule ∧
        t.responses = s.responses ∧ t.draws = s.draws ∧
        t.arch =
          { s.arch with cmd := w, pending := some i, done := false, err := false, ecode := 0 }) ∧
    ∀ (s : State) (w : Word) (e : CmdError), decode w = .error e →
      step (s.withFetchWord 32 w.toNat) =
        .next (answered .written (failedAs e.code { s.arch with cmd := w } s))

/-- 60_exceptions.md R220 with 00_scope.md R20: every step of every state answers a next state; nothing is stuck. That a
bus error is a next state with a recorded response, where 93_implementation_defined.md says `fault`, and that an engine's
turn with nothing pending is one that changes nothing, are the model's readings (DEDUCED, notes/assumptions/5.md and
2.md). -/
def Obligations.EveryStepAnswersANextState : Prop :=
  ∀ s : State, ∃ t, step s = .next t

/-- 70_reset_and_hazards.md R250 with 10_state.md R49. Reset, at any moment, gives every piece of the core's state its
reset value, abandons a pending command, and leaves the configuration words. That it leaves the model's own fields, the
schedule, the responses and the draws, is the model's choice (DESIGN CHOICE, notes/assumptions/6.md). -/
def Obligations.ResetClearsTheCore : Prop :=
  ∀ s : State, ∃ t, step (scheduled .reset s) = .next t ∧
    t.arch.cmd = 0 ∧ t.arch.pending = none ∧ t.arch.done = false ∧ t.arch.err = false ∧ t.arch.ecode = 0 ∧
    t.arch.result = 0 ∧ t.arch.orig = 0 ∧ (∀ i : Fin 16, t.arch.trial[i] = 0) ∧ t.arch.sacSum = 0 ∧
    t.arch.bicScore = 0 ∧ t.arch.bicZv = 0 ∧ (∀ j k : Fin 16, (t.arch.gram[j])[k] = 0) ∧
    t.arch = State.reset.arch ∧
    (∀ k : Fin 8, regWord defaultConfig t.arch (.config k) = regWord defaultConfig s.arch (.config k)) ∧
    t.schedule = s.schedule ∧ t.responses = s.responses ∧ t.draws = s.draws

/-- 70_reset_and_hazards.md R251. After reset STATUS reads 0 and the core accepts any CMD write at once. -/
def Obligations.CoreIsIdleAfterReset : Prop :=
  ∀ s : State, s.arch = State.reset.arch →
    step (scheduled (.busRead 0x004 (.single 32)) s) = .next (answered (.data 0) s) ∧
      ∀ v : Word, ∃ t, step (scheduled (.busWrite 0x000 v (.single 32)) s) = .next t ∧
        t.responses = .written :: s.responses ∧ t.arch.cmd = v

/-- 00_scope.md R11 with R8 and R9. Elaboration builds a machine exactly from two bijective tables and refuses any
others; from the default tables it builds this machine. -/
def Obligations.ElaborationRefusesTablesThatAreNoBijection : Prop :=
  (∀ t : Tables,
      ((∀ i j : Fin 16, t.sbox[i] = t.sbox[j] → i = j) ∧ (∀ i j : Fin 16, t.perm[i] = t.perm[j] → i = j) →
        elaborate t = .ok (coreWith (configOf t))) ∧
      (¬ ((∀ i j : Fin 16, t.sbox[i] = t.sbox[j] → i = j) ∧ ∀ i j : Fin 16, t.perm[i] = t.perm[j] → i = j) →
        elaborate t = .error .invalidTables)) ∧
    elaborate Tables.default = .ok Sys2Proof.core

/-- 10_state.md R35. The four STATUS invariants hold after reset, and every step keeps them. -/
def Obligations.StepKeepsStatusConsistent : Prop :=
  StatusConsistent State.reset.arch ∧
    ∀ s t : State, StatusConsistent s.arch → step s = .next t → StatusConsistent t.arch

/-- 10_state.md R46 and 60_exceptions.md R221, as an invariant every step keeps: PENDING and STATUS describe the word in
CMD. -/
def Obligations.StepKeepsCommandRecorded : Prop :=
  ∀ s t : State, CommandRecorded s.arch → step s = .next t → CommandRecorded t.arch

/-- 10_state.md R50 and 44_bic.md R197, as an invariant every step keeps: the registers stay in their ranges. -/
def Obligations.StepKeepsRegistersInRange : Prop :=
  ∀ s t : State, RegistersInRange s.arch → step s = .next t → RegistersInRange t.arch

/-- 10_state.md R38 to R45 and 70_reset_and_hazards.md R259, as an invariant every step keeps: the evaluator registers
hold their reset values or the results of commands. -/
def Obligations.StepKeepsEvaluatorCoherent : Prop :=
  ∀ s t : State, EvaluatorCoherent s.arch → step s = .next t → EvaluatorCoherent t.arch

/-- The four invariants hold right after reset (10_state.md R49). -/
def Obligations.ResetMeetsTheInvariants : Prop :=
  StatusConsistent State.reset.arch ∧ CommandRecorded State.reset.arch ∧
    RegistersInRange State.reset.arch ∧ EvaluatorCoherent State.reset.arch

/-- 10_state.md R34: "STATUS changes only at a command acceptance, a command completion and reset". -/
def Obligations.StatusChangesOnlyAtAcceptanceCompletionAndReset : Prop :=
  ∀ s t : State, step s = .next t →
    regWord defaultConfig t.arch .status ≠ regWord defaultConfig s.arch .status →
    acceptanceIsNext s = true ∨ (engineIsNext s = true ∧ s.arch.pending ≠ none) ∨ resetIsNext s = true

/-- 10_state.md R30: the data registers are "written only by command completion", and by reset. -/
def Obligations.DataRegistersChangeOnlyAtCompletionAndReset : Prop :=
  ∀ s t : State, step s = .next t → ¬ (engineIsNext s = true ∧ s.arch.pending ≠ none) → resetIsNext s = false →
    t.arch.result = s.arch.result ∧ t.arch.orig = s.arch.orig ∧ t.arch.trial = s.arch.trial ∧
      t.arch.sacSum = s.arch.sacSum ∧ t.arch.bicScore = s.arch.bicScore ∧ t.arch.bicZv = s.arch.bicZv ∧
      t.arch.gram = s.arch.gram

/-- 20_memory.md R77 and 10_state.md R47: while a command is pending nothing the host does changes the core; only the
engine's completion and reset do. -/
def Obligations.HostCannotDisturbAPendingCommand : Prop :=
  ∀ s t : State, s.arch.pending ≠ none → engineIsNext s = false → resetIsNext s = false → step s = .next t →
    t.arch = s.arch

/-- 70_reset_and_hazards.md R265: every pending command is completed, or abandoned by a reset, whatever the host does
meanwhile. After some number of steps, at most the length of the schedule, the core is still as it was, and the very next
step is the engine's turn, the command's meaning on the state without the event taken, or reset; nothing is pending after
it. That a finite schedule and the engine's turn at its end stand for the fairness of R265, on which the bound rests, is
the model's reading (DEDUCED, notes/assumptions/2.md). -/
def Obligations.PendingCommandCompletes : Prop :=
  ∀ (s : State) (i : Instr), s.arch.pending = some i →
    ∃ (n : Nat) (u t : State), n ≤ s.schedule.length ∧ Sys2Proof.core.run n s = .next u ∧ u.arch = s.arch ∧
      ((engineIsNext u = true ∧ step u = exec i { u with schedule := u.schedule.tail }) ∨
        (resetIsNext u = true ∧
          step u = .next { u with arch := State.reset.arch, schedule := u.schedule.tail })) ∧
      step u = .next t ∧ t.arch.pending = none ∧ Sys2Proof.core.run (n + 1) s = .next t

/-! ## The host's tools -/

/-- 20_memory.md R81 and R82. The k-th block of a text is its bytes 2k and 2k+1, the first the high one, a space standing
for the byte that an odd text lacks; there are no more blocks. That the space byte is 0x20 is PRESUMED: R82 itself marks
it as from general knowledge (notes/assumptions/17.md). -/
def Obligations.TextIsFramedBigEndian : Prop :=
  (∀ b0 b1 : BitVec 8, (blockOfBytes b0 b1).toNat = b0.toNat * 256 + b1.toNat) ∧
    ∀ text : List (BitVec 8), (frameText text).length = (text.length + 1) / 2 ∧
      ∀ k, k < (text.length + 1) / 2 →
        (frameText text)[k]? = some (blockOfBytes (text.getD (2 * k) 0) (text.getD (2 * k + 1) 0x20))

/-- 30_encoding.md R111 and R112. The assembler refuses an operand out of range and writes ROUNDS = 4 when the round
count is omitted; what it gives is a valid command with those operands, so no word of its has an error. -/
def Obligations.AssemblerGivesOnlyValidWords : Prop :=
  ∀ (op : Opcode) (rounds : Option Nat) (operand : Nat),
    let limit := if op.takesNibble then 15 else 0xFFFF
    let r := if op.takesRounds then rounds.getD 4 else 0
    if operand ≤ limit ∧ (if op.takesRounds then 1 ≤ r ∧ r ≤ 255 else rounds = none) then
      ∃ i, assembleCommand op rounds operand = some i ∧ i.opcode = op ∧ i.rounds.toNat = r ∧
        i.data.toNat = operand ∧ decode (encode i) = .ok i
    else assembleCommand op rounds operand = none
end

