-- ==== Sys2Proof/Laws/Surd.lean ====
section
/-! SUPPORT. What the exact arithmetic of the BIC score means: the real number a `Surd` stands for, and that the
operations, the sign and the integer square root are right of it. -/

namespace Sys2Proof.Machine

/-- The real number: a pair (a, b) over `p :: ps` is a + b·√p. -/
noncomputable def surdValue : (ps : List Nat) → Surd ps → ℝ
  | [], x => ((show Int from x : Int) : ℝ)
  | p :: ps, x => surdValue ps x.1 + surdValue ps x.2 * √(p : ℝ)

theorem surdValue_ofInt (ps : List Nat) (z : Int) : surdValue ps (surdOfInt ps z) = z := by
  induction ps generalizing z with
  | nil => rfl
  | cons p ps ih => simp [surdOfInt, surdValue, ih]

theorem surdValue_add (ps : List Nat) (x y : Surd ps) :
    surdValue ps (surdAdd ps x y) = surdValue ps x + surdValue ps y := by
  induction ps with
  | nil => exact Int.cast_add (R := ℝ) _ _
  | cons p ps ih => simp only [surdAdd, surdValue, ih]; ring

theorem surdValue_scale (ps : List Nat) (z : Int) (x : Surd ps) :
    surdValue ps (surdScale ps z x) = z * surdValue ps x := by
  induction ps with
  | nil => exact Int.cast_mul (α := ℝ) _ _
  | cons p ps ih => simp only [surdScale, surdValue, ih]; ring

theorem surdValue_mul (ps : List Nat) (x y : Surd ps) :
    surdValue ps (surdMul ps x y) = surdValue ps x * surdValue ps y := by
  induction ps with
  | nil => exact Int.cast_mul (α := ℝ) _ _
  | cons p ps ih =>
    have hp : √(p : ℝ) * √(p : ℝ) = p := Real.mul_self_sqrt (Nat.cast_nonneg p)
    simp only [surdMul, surdValue, surdValue_add, surdValue_scale, ih, Int.cast_natCast]
    linear_combination -(surdValue ps x.2 * surdValue ps y.2) * hp

/-- The value of a monomial: its integer times the square roots of the marked radicands. -/
noncomputable def markedRoots : List Nat → List Bool → ℝ
  | [], _ => 1
  | p :: ps, e => (if e.headD false then √(p : ℝ) else 1) * markedRoots ps e.tail

theorem surdValue_monomial (ps : List Nat) (e : List Bool) (c : Int) :
    surdValue ps (surdMonomial ps e c) = c * markedRoots ps e := by
  induction ps generalizing e with
  | nil => simp [surdMonomial, surdValue, markedRoots]
  | cons p ps ih =>
    by_cases h : e.headD false = true
    · rw [show surdMonomial (p :: ps) e c = (surdOfInt ps 0, surdMonomial ps e.tail c) from if_pos h]
      simp only [markedRoots, if_pos h, surdValue, ih, surdValue_ofInt]
      push_cast; ring
    · rw [show surdMonomial (p :: ps) e c = (surdMonomial ps e.tail c, surdOfInt ps 0) from if_neg h]
      simp only [markedRoots, if_neg h, surdValue, ih, surdValue_ofInt]
      push_cast; ring

/-- The product of two chosen products of roots, by `surdMarks`. -/
theorem markedRoots_mul (ps : List Nat) (e f : List Bool) :
    markedRoots ps e * markedRoots ps f =
      (surdMarks ps e f).1 * markedRoots ps (surdMarks ps e f).2 := by
  induction ps generalizing e f with
  | nil => simp [markedRoots, surdMarks]
  | cons p ps ih =>
    have hp : √(p : ℝ) * √(p : ℝ) = p := Real.mul_self_sqrt (Nat.cast_nonneg p)
    have h := ih e.tail f.tail
    simp only [markedRoots, surdMarks, List.headD_cons, List.tail_cons]
    rcases Bool.eq_false_or_eq_true (e.headD false) with he | he <;>
      rcases Bool.eq_false_or_eq_true (f.headD false) with hf | hf <;>
      simp only [he, hf, Bool.and_self, Bool.and_false, Bool.false_and, bne_iff_ne, ne_eq,
        Bool.true_eq_false, Bool.false_eq_true, not_false_eq_true, not_true_eq_false, if_true, if_false, one_mul] <;>
      push_cast
    · linear_combination p * h + markedRoots ps e.tail * markedRoots ps f.tail * hp
    · linear_combination √(p : ℝ) * h
    · linear_combination √(p : ℝ) * h
    · exact h

/-- The sign of a real, as the integer -1, 0 or 1. -/
def IsSignOf (n : Int) (v : ℝ) : Prop :=
  (n = 1 ∧ 0 < v) ∨ (n = 0 ∧ v = 0) ∨ (n = -1 ∧ v < 0)

/-- `surdSign` is the sign of the number, for positive radicands. -/
theorem surdSign_isSignOf (ps : List Nat) (hps : ∀ p ∈ ps, 0 < p) (x : Surd ps) :
    IsSignOf (surdSign ps x) (surdValue ps x) := by
  induction ps with
  | nil =>
    have key : ∀ z : Int, IsSignOf (Int.sign z) (z : ℝ) := by
      intro z
      rcases lt_trichotomy z 0 with h | h | h
      · exact .inr (.inr ⟨Int.sign_eq_neg_one_of_neg h, by exact_mod_cast h⟩)
      · exact .inr (.inl ⟨by simp [h], by simp [h]⟩)
      · exact .inl ⟨Int.sign_eq_one_of_pos h, by exact_mod_cast h⟩
    exact key x
  | cons p ps ih =>
    have hp0 : (0 : ℝ) < p := by exact_mod_cast hps p (by simp)
    have hq : 0 < √(p : ℝ) := Real.sqrt_pos.2 hp0
    have hqq : √(p : ℝ) * √(p : ℝ) = p := Real.mul_self_sqrt hp0.le
    have ih := ih fun q hq => hps q (by simp [hq])
    have ha := ih x.1
    have hb := ih x.2
    have hc := ih (surdAdd ps (surdMul ps x.1 x.1) (surdScale ps (-(p : Int)) (surdMul ps x.2 x.2)))
    simp only [surdValue_add, surdValue_scale, surdValue_mul, Int.cast_neg, Int.cast_natCast] at hc
    simp only [surdSign, surdValue]
    generalize surdValue ps x.1 = a at ha hc ⊢
    generalize surdValue ps x.2 = b at hb hc ⊢
    generalize surdSign ps x.1 = sa at ha ⊢
    generalize surdSign ps x.2 = sb at hb ⊢
    generalize √(p : ℝ) = q at hq hqq ⊢
    have hd : a * a + -(p : ℝ) * (b * b) = (a - b * q) * (a + b * q) := by
      rw [← hqq]; ring
    rw [hd] at hc
    obtain ⟨rfl, ha⟩ | ⟨rfl, ha⟩ | ⟨rfl, ha⟩ := ha <;>
      obtain ⟨rfl, hb⟩ | ⟨rfl, hb⟩ | ⟨rfl, hb⟩ := hb <;>
      have hbq := mul_comm b q
    · exact .inl ⟨by simp, by positivity⟩
    · exact .inl ⟨by simp, by simpa [hb] using ha⟩
    · have h0 : 0 < a - b * q := by nlinarith
      simp only [show (-1 : Int) ≠ 0 by decide, show (1 : Int) ≠ 0 by decide,
        show (1 : Int) ≠ -1 by decide, if_false, one_mul]
      obtain ⟨h, hv⟩ | ⟨h, hv⟩ | ⟨h, hv⟩ := hc
      · exact .inl ⟨h, (pos_iff_pos_of_mul_pos hv).1 h0⟩
      · exact .inr (.inl ⟨h, (mul_eq_zero.1 hv).resolve_left h0.ne'⟩)
      · exact .inr (.inr ⟨h, by nlinarith⟩)
    · exact .inl ⟨by simp, by rw [ha]; nlinarith⟩
    · exact .inr (.inl ⟨by simp, by simp [ha, hb]⟩)
    · exact .inr (.inr ⟨by simp, by rw [ha]; nlinarith⟩)
    · have h0 : a - b * q < 0 := by nlinarith
      simp only [show (-1 : Int) ≠ 0 by decide, show (1 : Int) ≠ 0 by decide,
        show (-1 : Int) ≠ 1 by decide, if_false]
      obtain ⟨h, hv⟩ | ⟨h, hv⟩ | ⟨h, hv⟩ := hc
      · exact .inr (.inr ⟨by simp [h], by nlinarith⟩)
      · exact .inr (.inl ⟨by simp [h], (mul_eq_zero.1 hv).resolve_left h0.ne⟩)
      · exact .inl ⟨by simp [h], by nlinarith⟩
    · exact .inr (.inr ⟨by simp, by simpa [hb] using ha⟩)
    · exact .inr (.inr ⟨by simp, by nlinarith⟩)

/-- The loop of `isqrt`: the root stays below the value, and within the bits still to be found of it. -/
theorem isqrtBits_spec (v n acc : Nat) (hl : acc * acc ≤ v)
    (hu : v < (acc + 2 ^ n) * (acc + 2 ^ n)) :
    isqrtBits v n acc * isqrtBits v n acc ≤ v ∧ v < (isqrtBits v n acc + 1) * (isqrtBits v n acc + 1) := by
  induction n generalizing acc with
  | zero => exact ⟨hl, by simpa [isqrtBits] using hu⟩
  | succ n ih =>
    simp only [isqrtBits]
    split
    · rename_i h
      exact ih _ h (by rw [add_assoc, ← two_mul, ← pow_succ']; exact hu)
    · rename_i h
      exact ih _ hl (not_le.1 h)

/-- `isqrt v` is the integer square root of `v`. -/
theorem isqrt_spec (v : Nat) : isqrt v * isqrt v ≤ v ∧ v < (isqrt v + 1) * (isqrt v + 1) := by
  refine isqrtBits_spec v _ 0 (by simp) ?_
  have h : v < 2 ^ (v.log2 + 1) := Nat.lt_log2_self
  have : (0 + 2 ^ (v.log2 / 2 + 1)) * (0 + 2 ^ (v.log2 / 2 + 1)) = 2 ^ (2 * (v.log2 / 2 + 1)) := by
    rw [zero_add, ← pow_two, ← pow_mul]; ring_nf
  rw [this]
  exact h.trans_le (Nat.pow_le_pow_right (by norm_num) (by omega))

end Sys2Proof.Machine
end

