-- ==== Sys2Proof/Laws/Bic.lean ====
section
/-! SUPPORT. The Gram matrix of a sample, its variances, and what the two integer readings of one correlation, the scaled
and the exact one, are of the real number |r[j][k]| of 44_bic.md R200. -/

namespace Sys2Proof.Machine

theorem gramCount_le (t : Vector Block 16) (j k : Fin 16) : gramCount t j k ≤ 16 :=
  List.countP_le_length.trans (by decide)

/-- The register entries are wide enough for the counts. -/
theorem gramAt_gramOf (t : Vector Block 16) (j k : Fin 16) : gramAt (gramOf t) j k = gramCount t j k := by
  unfold gramAt gramOf
  simp only [Fin.getElem_fin, Vector.getElem_ofFn, BitVec.toNat_ofNat]
  exact Nat.mod_eq_of_lt ((gramCount_le t _ _).trans_lt (by norm_num))

theorem columnCount_le (t : Vector Block 16) (j : Fin 16) : columnCount (gramOf t) j ≤ 16 := by
  unfold columnCount
  rw [gramAt_gramOf]
  exact gramCount_le t j j

/-- The values that n·(16 − n) takes. -/
def varianceValues : List Nat := [0, 15, 28, 39, 48, 55, 60, 63, 64]

theorem columnVariance_mem (t : Vector Block 16) (j : Fin 16) :
    columnVariance (gramOf t) j ∈ varianceValues := by
  have := columnCount_le t j
  unfold columnVariance
  generalize columnCount (gramOf t) j = n at *
  interval_cases n <;> decide

theorem dvd_varianceMultiple : ∀ v ∈ varianceValues, v ≠ 0 → v ∣ varianceMultiple := by decide

theorem markedRoots_nonneg (ps : List Nat) (e : List Bool) : 0 ≤ markedRoots ps e := by
  induction ps generalizing e with
  | nil => simp [markedRoots]
  | cons p ps ih =>
    have := ih e.tail
    unfold markedRoots
    split <;> positivity

/-- The table of square roots is right. -/
theorem sqrt_variance (v : Nat) (hv : v ∈ varianceValues) :
    √(v : ℝ) = (rootOfVariance v).1 * markedRoots scoreRadicands (rootOfVariance v).2 := by
  have hn : (0 : ℝ) ≤ (rootOfVariance v).1 * markedRoots scoreRadicands (rootOfVariance v).2 := by
    have : 0 ≤ (rootOfVariance v).1 := by unfold rootOfVariance; split <;> decide
    exact mul_nonneg (by exact_mod_cast this) (markedRoots_nonneg _ _)
  have h (n : ℕ) : √(n : ℝ) ^ 2 = n := Real.sq_sqrt (Nat.cast_nonneg n)
  have h3 := h 3
  have h5 := h 5
  have h7 := h 7
  have h11 := h 11
  have h13 := h 13
  push_cast at h3 h5 h7 h11 h13
  rw [Real.sqrt_eq_iff_mul_self_eq (Nat.cast_nonneg v) hn, ← pow_two]
  simp only [varianceValues, List.mem_cons, List.not_mem_nil, or_false] at hv
  rcases hv with rfl | rfl | rfl | rfl | rfl | rfl | rfl | rfl | rfl <;>
    simp [rootOfVariance, markedRoots, scoreRadicands, mul_pow, h3, h5, h7, h11, h13] <;> norm_num

/-- |r[j][k]| off the diagonal: the numerator over the root of the product of the variances, 0 where that is 0 (R200). -/
theorem abs_correlation (g : BicMatrix) (j k : Fin 16) (h : j ≠ k) :
    |correlation g j k| = covariance g j k / √((columnVariance g j : ℝ) * columnVariance g k) := by
  unfold correlation
  rw [if_neg h]
  split
  · rename_i h
    rcases h with h | h <;> simp [h]
  · rw [abs_div, abs_of_nonneg (Real.sqrt_nonneg _)]
    congr 1
    unfold covariance
    rw [Nat.cast_natAbs]
    push_cast
    rfl

/-- The scaled correlation is the floor of 2^40·|r[j][k]|. -/
theorem scaledCorrelation_spec (g : BicMatrix) (j k : Fin 16) (h : j ≠ k) :
    (scaledCorrelation g j k : ℝ) ≤ 2 ^ 40 * |correlation g j k| ∧
      2 ^ 40 * |correlation g j k| < scaledCorrelation g j k + 1 := by
  rw [abs_correlation g j k h]
  unfold scaledCorrelation
  generalize covariance g j k = c
  generalize columnVariance g j = v
  generalize columnVariance g k = w
  have hs := isqrt_spec (c ^ 2 * 2 ^ 80 / (v * w))
  generalize isqrt (c ^ 2 * 2 ^ 80 / (v * w)) = r at *
  rcases Nat.eq_zero_or_pos (v * w) with h | h
  · have h' : (v : ℝ) * w = 0 := by exact_mod_cast h
    rw [h, Nat.div_zero] at hs
    have : r = 0 := by nlinarith [hs.1]
    simp [h', this]
  · have h' : (0 : ℝ) < (v : ℝ) * w := by exact_mod_cast h
    have hq : 0 < √((v : ℝ) * w) := Real.sqrt_pos.2 h'
    have hqq : √((v : ℝ) * w) * √((v : ℝ) * w) = (v : ℝ) * w := Real.mul_self_sqrt h'.le
    have l1 : (r : ℝ) * r * (v * w) ≤ c ^ 2 * 2 ^ 80 := by
      exact_mod_cast (Nat.le_div_iff_mul_le h).1 hs.1
    have l2 : (c : ℝ) ^ 2 * 2 ^ 80 < ((r : ℝ) + 1) * (r + 1) * (v * w) := by
      exact_mod_cast (Nat.div_lt_iff_lt_mul h).1 hs.2
    generalize √((v : ℝ) * w) = q at *
    rw [← hqq] at l1 l2
    constructor
    · rw [← mul_div_assoc, le_div_iff₀ hq]
      exact (abs_le_of_sq_le_sq' (a := r * q) (b := 2 ^ 40 * (c : ℝ)) (by nlinarith) (by positivity)).2
    · rw [← mul_div_assoc, div_lt_iff₀ hq]
      exact lt_of_pow_lt_pow_left₀ 2 (by positivity) (by nlinarith)

/-- The exact correlation is M²·|r[j][k]|. -/
theorem exactCorrelation_spec (t : Vector Block 16) (j k : Fin 16) (h : j ≠ k) :
    surdValue scoreRadicands (exactCorrelation (gramOf t) j k) =
      (varianceMultiple : ℝ) ^ 2 * |correlation (gramOf t) j k| := by
  rw [abs_correlation _ j k h]
  unfold exactCorrelation
  have hv := columnVariance_mem t j
  have hw := columnVariance_mem t k
  generalize columnVariance (gramOf t) j = v at *
  generalize columnVariance (gramOf t) k = w at *
  simp only [surdValue_monomial]
  rw [Real.sqrt_mul (Nat.cast_nonneg v)]
  by_cases h0 : v = 0
  · subst h0
    rw [show (rootOfVariance 0).1 = 0 from rfl]
    simp only [Nat.cast_zero, Real.sqrt_zero, zero_mul, div_zero, mul_zero, Int.cast_zero]
  by_cases h1 : w = 0
  · subst h1
    rw [show (rootOfVariance 0).1 = 0 from rfl]
    simp only [Nat.cast_zero, Real.sqrt_zero, zero_mul, div_zero, mul_zero, Int.cast_zero]
  have hd : v * w ∣ varianceMultiple ^ 2 := by
    rw [pow_two]
    exact mul_dvd_mul (dvd_varianceMultiple v hv h0) (dvd_varianceMultiple w hw h1)
  have hv0 : (0 : ℝ) < v := by exact_mod_cast Nat.pos_of_ne_zero h0
  have hw0 : (0 : ℝ) < w := by exact_mod_cast Nat.pos_of_ne_zero h1
  have hQ : ((varianceMultiple ^ 2 / (v * w) : ℕ) : ℝ) = (varianceMultiple : ℝ) ^ 2 / (v * w) := by
    rw [Nat.cast_div hd (by push_cast; positivity)]
    push_cast
    rfl
  have hm := markedRoots_mul scoreRadicands (rootOfVariance v).2 (rootOfVariance w).2
  have key : (rootOfVariance v).1 * (rootOfVariance w).1 *
      (surdMarks scoreRadicands (rootOfVariance v).2 (rootOfVariance w).2).1 *
      markedRoots scoreRadicands (surdMarks scoreRadicands (rootOfVariance v).2 (rootOfVariance w).2).2
        = √(v : ℝ) * √(w : ℝ) := by
    rw [sqrt_variance v hv, sqrt_variance w hw]
    linear_combination -((rootOfVariance v).1 * (rootOfVariance w).1 : ℝ) * hm
  have hinv : (√(v : ℝ) * √(w : ℝ)) / (v * w) = 1 / (√(v : ℝ) * √(w : ℝ)) := by
    have s1 : √(v : ℝ) * √(v : ℝ) = v := Real.mul_self_sqrt hv0.le
    have s2 : √(w : ℝ) * √(w : ℝ) = w := Real.mul_self_sqrt hw0.le
    have p1 : 0 < √(v : ℝ) := Real.sqrt_pos.2 hv0
    have p2 : 0 < √(w : ℝ) := Real.sqrt_pos.2 hw0
    rw [div_eq_div_iff (by positivity) (by positivity)]
    linear_combination √(w : ℝ) * √(w : ℝ) * s1 + (v : ℝ) * s2
  simp only [Int.cast_mul, Int.cast_natCast, hQ]
  calc _ = (covariance (gramOf t) j k : ℝ) * (varianceMultiple : ℝ) ^ 2 *
        ((√(v : ℝ) * √(w : ℝ)) / (v * w)) := by rw [← key]; ring
    _ = _ := by rw [hinv]; ring

end Sys2Proof.Machine
end

