-- ==== Sys2Proof/Laws/State.lean ====
section
/-! SUPPORT. What each operation does to each field of the state: one lemma per field per update, true by rfl, so that no
later proof unfolds a record update. -/

namespace Sys2Proof.Machine

section latchCmdFields
variable (v : Word) (a : Arch)

@[simp] theorem latchCmd_cmd : (latchCmd v a).cmd = v := rfl
@[simp] theorem latchCmd_pending : (latchCmd v a).pending = a.pending := rfl
@[simp] theorem latchCmd_done : (latchCmd v a).done = a.done := rfl
@[simp] theorem latchCmd_err : (latchCmd v a).err = a.err := rfl
@[simp] theorem latchCmd_ecode : (latchCmd v a).ecode = a.ecode := rfl
@[simp] theorem latchCmd_result : (latchCmd v a).result = a.result := rfl
@[simp] theorem latchCmd_orig : (latchCmd v a).orig = a.orig := rfl
@[simp] theorem latchCmd_trial : (latchCmd v a).trial = a.trial := rfl
@[simp] theorem latchCmd_sacSum : (latchCmd v a).sacSum = a.sacSum := rfl
@[simp] theorem latchCmd_bicScore : (latchCmd v a).bicScore = a.bicScore := rfl
@[simp] theorem latchCmd_bicZv : (latchCmd v a).bicZv = a.bicZv := rfl
@[simp] theorem latchCmd_gram : (latchCmd v a).gram = a.gram := rfl

end latchCmdFields

section beginCommandFields
variable (i : Instr) (a : Arch)

@[simp] theorem beginCommand_cmd : (beginCommand i a).cmd = a.cmd := rfl
@[simp] theorem beginCommand_pending : (beginCommand i a).pending = some i := rfl
@[simp] theorem beginCommand_done : (beginCommand i a).done = false := rfl
@[simp] theorem beginCommand_err : (beginCommand i a).err = false := rfl
@[simp] theorem beginCommand_ecode : (beginCommand i a).ecode = 0 := rfl
@[simp] theorem beginCommand_result : (beginCommand i a).result = a.result := rfl
@[simp] theorem beginCommand_orig : (beginCommand i a).orig = a.orig := rfl
@[simp] theorem beginCommand_trial : (beginCommand i a).trial = a.trial := rfl
@[simp] theorem beginCommand_sacSum : (beginCommand i a).sacSum = a.sacSum := rfl
@[simp] theorem beginCommand_bicScore : (beginCommand i a).bicScore = a.bicScore := rfl
@[simp] theorem beginCommand_bicZv : (beginCommand i a).bicZv = a.bicZv := rfl
@[simp] theorem beginCommand_gram : (beginCommand i a).gram = a.gram := rfl

end beginCommandFields

section commandErrorFields
variable (e : CmdError) (a : Arch)

@[simp] theorem commandError_cmd : (commandError e a).cmd = a.cmd := rfl
@[simp] theorem commandError_pending : (commandError e a).pending = none := rfl
@[simp] theorem commandError_done : (commandError e a).done = true := rfl
@[simp] theorem commandError_err : (commandError e a).err = true := rfl
@[simp] theorem commandError_ecode : (commandError e a).ecode = e.code := rfl
@[simp] theorem commandError_result : (commandError e a).result = a.result := rfl
@[simp] theorem commandError_orig : (commandError e a).orig = a.orig := rfl
@[simp] theorem commandError_trial : (commandError e a).trial = a.trial := rfl
@[simp] theorem commandError_sacSum : (commandError e a).sacSum = a.sacSum := rfl
@[simp] theorem commandError_bicScore : (commandError e a).bicScore = a.bicScore := rfl
@[simp] theorem commandError_bicZv : (commandError e a).bicZv = a.bicZv := rfl
@[simp] theorem commandError_gram : (commandError e a).gram = a.gram := rfl

end commandErrorFields

section completeCommandFields
variable (a : Arch)

@[simp] theorem completeCommand_cmd : (completeCommand a).cmd = a.cmd := rfl
@[simp] theorem completeCommand_pending : (completeCommand a).pending = none := rfl
@[simp] theorem completeCommand_done : (completeCommand a).done = true := rfl
@[simp] theorem completeCommand_err : (completeCommand a).err = false := rfl
@[simp] theorem completeCommand_ecode : (completeCommand a).ecode = 0 := rfl
@[simp] theorem completeCommand_result : (completeCommand a).result = a.result := rfl
@[simp] theorem completeCommand_orig : (completeCommand a).orig = a.orig := rfl
@[simp] theorem completeCommand_trial : (completeCommand a).trial = a.trial := rfl
@[simp] theorem completeCommand_sacSum : (completeCommand a).sacSum = a.sacSum := rfl
@[simp] theorem completeCommand_bicScore : (completeCommand a).bicScore = a.bicScore := rfl
@[simp] theorem completeCommand_bicZv : (completeCommand a).bicZv = a.bicZv := rfl
@[simp] theorem completeCommand_gram : (completeCommand a).gram = a.gram := rfl

end completeCommandFields

section writeResultFields
variable (v : Block) (a : Arch)

@[simp] theorem writeResult_cmd : (writeResult v a).cmd = a.cmd := rfl
@[simp] theorem writeResult_pending : (writeResult v a).pending = a.pending := rfl
@[simp] theorem writeResult_done : (writeResult v a).done = a.done := rfl
@[simp] theorem writeResult_err : (writeResult v a).err = a.err := rfl
@[simp] theorem writeResult_ecode : (writeResult v a).ecode = a.ecode := rfl
@[simp] theorem writeResult_result : (writeResult v a).result = v := rfl
@[simp] theorem writeResult_orig : (writeResult v a).orig = a.orig := rfl
@[simp] theorem writeResult_trial : (writeResult v a).trial = a.trial := rfl
@[simp] theorem writeResult_sacSum : (writeResult v a).sacSum = a.sacSum := rfl
@[simp] theorem writeResult_bicScore : (writeResult v a).bicScore = a.bicScore := rfl
@[simp] theorem writeResult_bicZv : (writeResult v a).bicZv = a.bicZv := rfl
@[simp] theorem writeResult_gram : (writeResult v a).gram = a.gram := rfl

end writeResultFields

section writeSampleFields
variable (o : Block) (t : Vector Block 16) (a : Arch)

@[simp] theorem writeSample_cmd : (writeSample o t a).cmd = a.cmd := rfl
@[simp] theorem writeSample_pending : (writeSample o t a).pending = a.pending := rfl
@[simp] theorem writeSample_done : (writeSample o t a).done = a.done := rfl
@[simp] theorem writeSample_err : (writeSample o t a).err = a.err := rfl
@[simp] theorem writeSample_ecode : (writeSample o t a).ecode = a.ecode := rfl
@[simp] theorem writeSample_result : (writeSample o t a).result = a.result := rfl
@[simp] theorem writeSample_orig : (writeSample o t a).orig = o := rfl
@[simp] theorem writeSample_trial : (writeSample o t a).trial = t := rfl
@[simp] theorem writeSample_sacSum : (writeSample o t a).sacSum = a.sacSum := rfl
@[simp] theorem writeSample_bicScore : (writeSample o t a).bicScore = a.bicScore := rfl
@[simp] theorem writeSample_bicZv : (writeSample o t a).bicZv = a.bicZv := rfl
@[simp] theorem writeSample_gram : (writeSample o t a).gram = a.gram := rfl

end writeSampleFields

section writeSacSumFields
variable (n : BitVec 9) (a : Arch)

@[simp] theorem writeSacSum_cmd : (writeSacSum n a).cmd = a.cmd := rfl
@[simp] theorem writeSacSum_pending : (writeSacSum n a).pending = a.pending := rfl
@[simp] theorem writeSacSum_done : (writeSacSum n a).done = a.done := rfl
@[simp] theorem writeSacSum_err : (writeSacSum n a).err = a.err := rfl
@[simp] theorem writeSacSum_ecode : (writeSacSum n a).ecode = a.ecode := rfl
@[simp] theorem writeSacSum_result : (writeSacSum n a).result = a.result := rfl
@[simp] theorem writeSacSum_orig : (writeSacSum n a).orig = a.orig := rfl
@[simp] theorem writeSacSum_trial : (writeSacSum n a).trial = a.trial := rfl
@[simp] theorem writeSacSum_sacSum : (writeSacSum n a).sacSum = n := rfl
@[simp] theorem writeSacSum_bicScore : (writeSacSum n a).bicScore = a.bicScore := rfl
@[simp] theorem writeSacSum_bicZv : (writeSacSum n a).bicZv = a.bicZv := rfl
@[simp] theorem writeSacSum_gram : (writeSacSum n a).gram = a.gram := rfl

end writeSacSumFields

section writeBicFields
variable (g : BicMatrix) (z : Block) (n : BitVec 31) (a : Arch)

@[simp] theorem writeBic_cmd : (writeBic g z n a).cmd = a.cmd := rfl
@[simp] theorem writeBic_pending : (writeBic g z n a).pending = a.pending := rfl
@[simp] theorem writeBic_done : (writeBic g z n a).done = a.done := rfl
@[simp] theorem writeBic_err : (writeBic g z n a).err = a.err := rfl
@[simp] theorem writeBic_ecode : (writeBic g z n a).ecode = a.ecode := rfl
@[simp] theorem writeBic_result : (writeBic g z n a).result = a.result := rfl
@[simp] theorem writeBic_orig : (writeBic g z n a).orig = a.orig := rfl
@[simp] theorem writeBic_trial : (writeBic g z n a).trial = a.trial := rfl
@[simp] theorem writeBic_sacSum : (writeBic g z n a).sacSum = a.sacSum := rfl
@[simp] theorem writeBic_bicScore : (writeBic g z n a).bicScore = n := rfl
@[simp] theorem writeBic_bicZv : (writeBic g z n a).bicZv = z := rfl
@[simp] theorem writeBic_gram : (writeBic g z n a).gram = g := rfl

end writeBicFields

section stateFields
variable (s : State)

@[simp] theorem respond_arch (r : Response) : (respond r s).arch = s.arch := rfl
@[simp] theorem respond_schedule (r : Response) : (respond r s).schedule = s.schedule := rfl
@[simp] theorem respond_responses (r : Response) : (respond r s).responses = r :: s.responses := rfl
@[simp] theorem respond_draws (r : Response) : (respond r s).draws = s.draws := rfl

@[simp] theorem withArch_arch (a : Arch) : (withArch a s).arch = a := rfl
@[simp] theorem withArch_schedule (a : Arch) : (withArch a s).schedule = s.schedule := rfl
@[simp] theorem withArch_responses (a : Arch) : (withArch a s).responses = s.responses := rfl
@[simp] theorem withArch_draws (a : Arch) : (withArch a s).draws = s.draws := rfl

@[simp] theorem completeWith_arch (f : Arch → Arch) : (completeWith f s).arch = completeCommand (f s.arch) := rfl
@[simp] theorem completeWith_schedule (f : Arch → Arch) : (completeWith f s).schedule = s.schedule := rfl
@[simp] theorem completeWith_responses (f : Arch → Arch) : (completeWith f s).responses = s.responses := rfl
@[simp] theorem completeWith_draws (f : Arch → Arch) : (completeWith f s).draws = s.draws := rfl

@[simp] theorem endInError_arch (e : CmdError) : (endInError e s).arch = commandError e s.arch := rfl
@[simp] theorem endInError_schedule (e : CmdError) : (endInError e s).schedule = s.schedule := rfl
@[simp] theorem endInError_responses (e : CmdError) : (endInError e s).responses = s.responses := rfl
@[simp] theorem endInError_draws (e : CmdError) : (endInError e s).draws = s.draws := rfl

@[simp] theorem resetCore_arch : (resetCore s).arch = Arch.reset := rfl
@[simp] theorem resetCore_schedule : (resetCore s).schedule = s.schedule := rfl
@[simp] theorem resetCore_responses : (resetCore s).responses = s.responses := rfl
@[simp] theorem resetCore_draws : (resetCore s).draws = s.draws := rfl

end stateFields

end Sys2Proof.Machine
end

