-- ==== Sys2Proof/Laws/Bus.lean ====
section
/-! SUPPORT. What a bus transaction can do: a read changes no state of the core, and a write changes it only by the
acceptance of a command word. -/

namespace Sys2Proof.Machine

/-- A read returns something, draws at most one free word, and leaves the core and the schedule. -/
theorem busRead_frame (cfg : Config) (addr : Addr) (size : AccessSize) (s : State) :
    (busRead cfg addr size s).arch = s.arch ∧ (busRead cfg addr size s).schedule = s.schedule := by
  unfold busRead
  split
  · exact ⟨rfl, rfl⟩
  · split
    · exact ⟨rfl, rfl⟩
    · unfold readReg
      split <;> exact ⟨rfl, rfl⟩

@[simp] theorem busRead_arch (cfg : Config) (addr : Addr) (size : AccessSize) (s : State) :
    (busRead cfg addr size s).arch = s.arch := (busRead_frame cfg addr size s).1

@[simp] theorem busRead_schedule (cfg : Config) (addr : Addr) (size : AccessSize) (s : State) :
    (busRead cfg addr size s).schedule = s.schedule := (busRead_frame cfg addr size s).2

/-- Acceptance of a word: a valid command becomes pending, or the error is taken; CMD has the word. -/
theorem acceptWord_cases (v : Word) (s : State) :
    (∃ i, decode v = .ok i ∧
        acceptWord v s = withArch (beginCommand i (latchCmd v s.arch)) s) ∨
      ∃ e, decode v = .error e ∧
        acceptWord v s = withArch (commandError e (latchCmd v s.arch)) s := by
  unfold acceptWord
  cases h : decode v with
  | ok i => exact .inl ⟨i, rfl, rfl⟩
  | error e => exact .inr ⟨e, rfl, rfl⟩

/-- A write returns a bus error and changes nothing else, or it is a word to CMD of an idle core and is accepted. -/
theorem busWrite_cases (addr : Addr) (v : Word) (size : AccessSize) (s : State) :
    (∃ k, busWrite addr v size s = respond (.busError k) s ∧
        (regAt addr = some .cmd → size = .single 32 → s.arch.pending.isSome = true)) ∨
      (size = .single 32 ∧ regAt addr = some .cmd ∧ s.arch.pending = none ∧
        busWrite addr v size s = respond .written (acceptWord v s)) := by
  unfold busWrite
  split
  · rename_i h
    exact .inl ⟨.size, rfl, fun _ h' => absurd h' h⟩
  · rename_i h
    cases hr : regAt addr with
    | none => exact .inl ⟨.addr, rfl, by simp⟩
    | some r =>
      cases r <;>
        first
        | exact .inl ⟨.ro, rfl, by simp⟩
        | (by_cases hp : s.arch.pending.isSome = true
           · exact .inl ⟨.busy, by simp [hp], fun _ _ => hp⟩
           · exact .inr ⟨by simpa using h, rfl, by simpa using hp, by simp [hp]⟩)

end Sys2Proof.Machine
end

