-- ==== Sys2Proof/Laws/Commands.lean ====
section
/-! SUPPORT. What a command's meaning can do: it completes with writes to the data registers alone, or, when it is not
valid, it ends in the command error ROUNDS. -/

namespace Sys2Proof.Machine

/-- The writes leave CMD, PENDING and STATUS as they are. -/
structure WritesDataOnly (w : Arch → Arch) : Prop where
  cmd : ∀ a, (w a).cmd = a.cmd
  pending : ∀ a, (w a).pending = a.pending
  done : ∀ a, (w a).done = a.done
  err : ∀ a, (w a).err = a.err
  ecode : ∀ a, (w a).ecode = a.ecode

theorem writeResult_dataOnly (v : Block) : WritesDataOnly (writeResult v) := by
  constructor <;> simp

theorem sacWrites_dataOnly (n : BitVec 9) (o : Block) (t : Vector Block 16) :
    WritesDataOnly fun a => writeSacSum n (writeSample o t a) := by
  constructor <;> simp

theorem bicWrites_dataOnly (g : BicMatrix) (z : Block) (n : BitVec 31) (o : Block) (t : Vector Block 16) :
    WritesDataOnly fun a => writeBic g z n (writeSample o t a) := by
  constructor <;> simp

theorem completeRounds_of_ne_zero {r : RoundCount} (h : r ≠ 0) (w : Arch → Arch) (s : State) :
    completeRounds r w s = completeWith w s := if_neg h

theorem completeRounds_zero (w : Arch → Arch) (s : State) :
    completeRounds 0 w s = endInError .rounds s := if_pos rfl

/-- The two ends of a command that carries a round count. -/
theorem completeRounds_cases (r : RoundCount) (w : Arch → Arch) (s : State) :
    (r ≠ 0 ∧ completeRounds r w s = completeWith w s) ∨
      (r = 0 ∧ completeRounds r w s = endInError .rounds s) := by
  by_cases h : r = 0
  · subst h
    exact .inr ⟨rfl, completeRounds_zero w s⟩
  · exact .inl ⟨h, completeRounds_of_ne_zero h w s⟩

/-- The writes of a valid command's completion under a configuration (20_memory.md R84). -/
def commandWrites (cfg : Config) : Instr → Arch → Arch
  | .sbox v => writeResult ((substituteNibble v cfg.sbox).setWidth 16)
  | .sboxInv v => writeResult ((substituteNibble v cfg.sboxInv).setWidth 16)
  | .sub x => writeResult (sub16 x cfg.sbox)
  | .subInv x => writeResult (sub16 x cfg.sboxInv)
  | .perm x => writeResult (perm16 x cfg.perm)
  | .permInv x => writeResult (perm16 x cfg.permInv)
  | .enc r x => writeResult (encrypt cfg x r.toNat)
  | .dec r x => writeResult (decrypt cfg x r.toNat)
  | .sac r b => fun a =>
    writeSacSum (BitVec.ofNat 9 (sacSumOf (sampleOrig cfg b r.toNat) (sampleTrials cfg b r.toNat)))
      (writeSample (sampleOrig cfg b r.toNat) (sampleTrials cfg b r.toNat) a)
  | .bic r b => fun a =>
    writeBic (gramOf (sampleTrials cfg b r.toNat)) (zeroVarianceMask (gramOf (sampleTrials cfg b r.toNat)))
      (BitVec.ofNat 31 (bicScoreOf (gramOf (sampleTrials cfg b r.toNat))))
      (writeSample (sampleOrig cfg b r.toNat) (sampleTrials cfg b r.toNat) a)

theorem commandWrites_dataOnly (cfg : Config) (i : Instr) : WritesDataOnly (commandWrites cfg i) := by
  cases i <;>
    first
    | exact writeResult_dataOnly _
    | exact sacWrites_dataOnly _ _ _
    | exact bicWrites_dataOnly _ _ _ _ _

theorem roundCount_wf (r : RoundCount) : (r != 0) = true ↔ r ≠ 0 := bne_iff_ne

/-- A meaning ends in one of two ways: the completion of a valid command, or the command error ROUNDS. -/
theorem exec_cases (i : Instr) (s : State) :
    (i.WellFormed ∧ exec i s = .next (completeWith (commandWrites defaultConfig i) s)) ∨
      (¬ i.WellFormed ∧ exec i s = .next (endInError .rounds s)) := by
  cases i with
  | sbox v => exact .inl ⟨rfl, rfl⟩
  | sboxInv v => exact .inl ⟨rfl, rfl⟩
  | sub x => exact .inl ⟨rfl, rfl⟩
  | subInv x => exact .inl ⟨rfl, rfl⟩
  | perm x => exact .inl ⟨rfl, rfl⟩
  | permInv x => exact .inl ⟨rfl, rfl⟩
  | enc r x =>
    obtain ⟨h, e⟩ | ⟨h, e⟩ := completeRounds_cases r (commandWrites defaultConfig (.enc r x)) s
    · exact .inl ⟨(roundCount_wf r).2 h, congrArg Host.Outcome.next e⟩
    · exact .inr ⟨fun hw => (roundCount_wf r).1 hw h, congrArg Host.Outcome.next e⟩
  | dec r x =>
    obtain ⟨h, e⟩ | ⟨h, e⟩ := completeRounds_cases r (commandWrites defaultConfig (.dec r x)) s
    · exact .inl ⟨(roundCount_wf r).2 h, congrArg Host.Outcome.next e⟩
    · exact .inr ⟨fun hw => (roundCount_wf r).1 hw h, congrArg Host.Outcome.next e⟩
  | sac r b =>
    obtain ⟨h, e⟩ | ⟨h, e⟩ := completeRounds_cases r (commandWrites defaultConfig (.sac r b)) s
    · exact .inl ⟨(roundCount_wf r).2 h, congrArg Host.Outcome.next e⟩
    · exact .inr ⟨fun hw => (roundCount_wf r).1 hw h, congrArg Host.Outcome.next e⟩
  | bic r b =>
    obtain ⟨h, e⟩ | ⟨h, e⟩ := completeRounds_cases r (commandWrites defaultConfig (.bic r b)) s
    · exact .inl ⟨(roundCount_wf r).2 h, congrArg Host.Outcome.next e⟩
    · exact .inr ⟨fun hw => (roundCount_wf r).1 hw h, congrArg Host.Outcome.next e⟩

/-- The meaning of a valid command, in one equation. -/
theorem exec_of_wellFormed {i : Instr} (h : i.WellFormed) (s : State) :
    exec i s = .next (completeWith (commandWrites defaultConfig i) s) := by
  obtain ⟨_, e⟩ | ⟨n, _⟩ := exec_cases i s
  · exact e
  · exact absurd h n

end Sys2Proof.Machine
end

