-- ==== Sys2Proof/Laws/Decode.lean ====
section
/-! SUPPORT. The fields of an encoded command, and the two readings of a command word. -/

namespace Sys2Proof

/-- A command is made of its operation with its ROUNDS and DATA. -/
theorem instr_of_fields (i : Instr) : i.opcode.instr i.rounds i.data = i := by
  cases i <;> simp [Instr.opcode, Instr.rounds, Instr.data, Opcode.instr, BitVec.extractLsb'_setWidth_of_le]

@[simp] theorem opcode_ofBits_bits (op : Opcode) : Opcode.ofBits op.bits = some op := by
  cases op <;> rfl

/-- A legal OP field is the number of its operation (R106). -/
theorem opcode_bits_of_ofBits {b : BitVec 4} {op : Opcode} (h : Opcode.ofBits b = some op) : op.bits = b := by
  revert b op
  decide

@[simp] theorem instr_opcode (op : Opcode) (r : RoundCount) (d : Block) : (op.instr r d).opcode = op := by
  cases op <;> rfl

@[simp] theorem opField_encode (i : Instr) : opField (encode i) = i.opcode.bits := by
  unfold opField encode
  ext k hk
  have h1 : ¬ 28 + k < 16 := by omega
  have h2 : ¬ 28 + k - 16 < 8 := by omega
  have h3 : ¬ 28 + k - 16 - 8 < 4 := by omega
  simp only [BitVec.getElem_extractLsb', BitVec.getLsbD_append]
  simp [h1, h2, h3, show 28 + k - 16 - 8 - 4 = k by omega, BitVec.getLsbD_eq_getElem hk]

@[simp] theorem rsvField_encode (i : Instr) : rsvField (encode i) = 0 := by
  unfold rsvField encode
  ext k hk
  have h1 : ¬ 24 + k < 16 := by omega
  have h2 : ¬ 24 + k - 16 < 8 := by omega
  have h3 : 24 + k - 16 - 8 < 4 := by omega
  simp only [BitVec.getElem_extractLsb', BitVec.getLsbD_append]
  simp [h1, h2, h3]

@[simp] theorem roundsField_encode (i : Instr) : roundsField (encode i) = i.rounds := by
  unfold roundsField encode
  ext k hk
  have h1 : ¬ 16 + k < 16 := by omega
  simp only [BitVec.getElem_extractLsb', BitVec.getLsbD_append]
  simp [h1, hk, show 16 + k - 16 = k by omega]

@[simp] theorem dataField_encode (i : Instr) : dataField (encode i) = i.data := by
  unfold dataField encode
  ext k hk
  simp only [BitVec.getElem_extractLsb', BitVec.getLsbD_append]
  simp [hk]

/-- No must-be-zero field of an encoded command is set (R111). -/
theorem reservedFieldSet_encode (i : Instr) : reservedFieldSet i.opcode (encode i) = false := by
  unfold reservedFieldSet
  rw [rsvField_encode, dataField_encode, roundsField_encode]
  cases i with
  | sbox v => revert v; decide
  | sboxInv v => revert v; decide
  | sub x => rfl
  | subInv x => rfl
  | perm x => rfl
  | permInv x => rfl
  | enc r x => rfl
  | dec r x => rfl
  | sac r b => rfl
  | bic r b => rfl

/-- What decoding gives, by the reading of the row: no legal row is an error, a row's word is valid unless its round
count is 0 (R105, R109). -/
theorem decode_of_row {w : Word} {i : Instr} (h : decodeRow w = some i) :
    decode w = if i.opcode.takesRounds && i.rounds == 0 then .error .rounds else .ok i := by
  unfold decodeRow at h
  unfold decode
  cases ho : Opcode.ofBits (opField w) with
  | none => simp [ho] at h
  | some op =>
    simp only [ho] at h ⊢
    by_cases hr : reservedFieldSet op w = true
    · simp [hr] at h
    · simp only [hr] at h ⊢
      simp only [Bool.false_eq_true, if_false, Option.some.injEq] at h ⊢
      subst h
      cases op <;> rfl

end Sys2Proof
end

