-- ==== Sys2Proof/Laws/HostProgram.lean ====
section
/-! SUPPORT. The end of a host program's run (70_reset_and_hazards.md R266): it is reached, and it adds nothing to what
the lines observed. -/

namespace Sys2Proof.Machine

/-- One engine event: the pending command's meaning takes effect and nothing is pending, or nothing was pending and
nothing changes. -/
theorem oneEvent_engine_cases (s : State) :
    (∃ i, s.arch.pending = some i ∧ exec i s = .next (oneEvent .engine s) ∧
        (oneEvent .engine s).arch.pending = none) ∨
      (s.arch.pending = none ∧ oneEvent .engine s = s) := by
  have hs : step { s with schedule := .engine :: s.schedule } = engineTurn exec s := rfl
  cases hp : s.arch.pending with
  | none =>
    refine .inr ⟨rfl, ?_⟩
    simp only [oneEvent, hs, engineTurn, hp]
  | some i =>
    refine .inl ⟨i, rfl, ?_⟩
    obtain ⟨-, e⟩ | ⟨-, e⟩ := exec_cases i s <;>
      simp only [oneEvent, hs, engineTurn, hp, e] <;> exact ⟨trivial, rfl⟩

@[simp] theorem endRun_names (h : HostRun) : (endRun h).names = h.names := rfl
@[simp] theorem endRun_expectationsHold (h : HostRun) :
    (endRun h).expectationsHold = h.expectationsHold := rfl

/-- A run with nothing pending is at its end. -/
theorem endRun_of_hasEnded {h : HostRun} (he : hasEnded h = true) : endRun h = h := by
  obtain ⟨i, hp, -, -⟩ | ⟨-, e⟩ := oneEvent_engine_cases h.machine
  · simp [hasEnded, isBusy, hp] at he
  · simp only [endRun, e]

/-- Every run of every program ends, with STATUS.BUSY = 0 (R266). -/
theorem runProgram_hasEnded (p : List (HostLine × Timing)) (s : State) :
    hasEnded (runProgram p s) = true := by
  obtain ⟨i, -, -, e⟩ | ⟨hp, e⟩ := oneEvent_engine_cases (runLines p s).machine
  · simp [runProgram, endRun, hasEnded, isBusy, e]
  · simp [runProgram, endRun, hasEnded, isBusy, e, hp]

end Sys2Proof.Machine
end

