-- ==== Sys2Proof/Laws/PerInstr.lean ====
section
/-! SUPPORT. The family RowRoundTrip: the row that the decoder reads from an encoded instruction is the instruction, with
every operand, the invalid round count 0 included. One lemma per constructor. -/

namespace Sys2Proof.Laws.RowRoundTrip

/-- The decoder reads an instruction's own row and operands from its word. -/
def Statement (i : Instr) : Prop := decodeRow (encode i) = some i

/-- The common part of the lemmas. -/
theorem of_fields (i : Instr) : Statement i := by
  unfold Statement decodeRow
  rw [opField_encode, opcode_ofBits_bits]
  simp only [reservedFieldSet_encode, roundsField_encode, dataField_encode, instr_of_fields]
  rfl

theorem sbox (v : Nibble) : Statement (.sbox v) := of_fields _
theorem sboxInv (v : Nibble) : Statement (.sboxInv v) := of_fields _
theorem sub (x : Block) : Statement (.sub x) := of_fields _
theorem subInv (x : Block) : Statement (.subInv x) := of_fields _
theorem perm (x : Block) : Statement (.perm x) := of_fields _
theorem permInv (x : Block) : Statement (.permInv x) := of_fields _
theorem enc (r : RoundCount) (x : Block) : Statement (.enc r x) := of_fields _
theorem dec (r : RoundCount) (x : Block) : Statement (.dec r x) := of_fields _
theorem sac (r : RoundCount) (b : Block) : Statement (.sac r b) := of_fields _
theorem bic (r : RoundCount) (b : Block) : Statement (.bic r b) := of_fields _

end Sys2Proof.Laws.RowRoundTrip
end

