-- ==== Sys2Proof/Laws/Step.lean ====
section
/-! SUPPORT. What one step can do to the core, said once. -/

namespace Sys2Proof.Machine

/-- The ways a step changes the core: not at all, by the meaning of the pending command in the engine's turn, by the
acceptance of a word in an idle core, or by reset. -/
inductive CoreChange (s : State) (b : Arch) : Prop
  /-- Nothing happens to the core, and it is not the engine's turn with a command pending, nor reset's. -/
  | unchanged (h : b = s.arch) (he : engineIsNext s = true → s.arch.pending = none)
      (hr : resetIsNext s = false) (ha : acceptanceIsNext s = false)
  /-- The engine completes the pending command. -/
  | completed (i : Instr) (hp : s.arch.pending = some i) (hw : i.WellFormed)
      (he : engineIsNext s = true)
      (h : b = completeCommand (commandWrites defaultConfig i s.arch))
  /-- The engine finds a pending command with no rounds; no run has one. -/
  | failed (i : Instr) (hp : s.arch.pending = some i) (hw : ¬ i.WellFormed)
      (he : engineIsNext s = true) (h : b = commandError .rounds s.arch)
  /-- A valid word is accepted. -/
  | accepted (v : Word) (i : Instr) (hp : s.arch.pending = none) (hd : decode v = .ok i)
      (ha : acceptanceIsNext s = true) (h : b = beginCommand i (latchCmd v s.arch))
  /-- A word with an error is accepted. -/
  | rejected (v : Word) (e : CmdError) (hp : s.arch.pending = none) (hd : decode v = .error e)
      (ha : acceptanceIsNext s = true) (h : b = commandError e (latchCmd v s.arch))
  /-- Reset. -/
  | reset (hr : resetIsNext s = true) (h : b = Arch.reset)

/-- The engine's turn, on a state with the same core. -/
theorem engineTurn_change {s u t : State} (hu : u.arch = s.arch) (he : engineIsNext s = true)
    (hr : resetIsNext s = false) (ha : acceptanceIsNext s = false)
    (h : engineTurn exec u = .next t) : CoreChange s t.arch ∧ t.schedule = u.schedule := by
  unfold engineTurn at h
  cases hp : u.arch.pending with
  | none =>
    rw [hp] at h
    cases h
    exact ⟨.unchanged hu (fun _ => hu ▸ hp) hr ha, rfl⟩
  | some i =>
    rw [hp] at h
    change exec i u = .next t at h
    obtain ⟨hw, e⟩ | ⟨hw, e⟩ := exec_cases i u
    · rw [e] at h
      cases h
      exact ⟨.completed i (hu ▸ hp) hw he (by rw [completeWith_arch, hu]), rfl⟩
    · rw [e] at h
      cases h
      exact ⟨.failed i (hu ▸ hp) hw he (by rw [endInError_arch, hu]), rfl⟩

/-- Everything a step can do to the core; and it uses up one event of the schedule. -/
theorem step_change {s t : State} (h : step s = .next t) :
    CoreChange s t.arch ∧ t.schedule = s.schedule.tail := by
  unfold step stepOf at h
  cases hs : s.schedule with
  | nil =>
    rw [hs] at h
    have := engineTurn_change (s := s) rfl (by simp [engineIsNext, hs]) (by simp [resetIsNext, hs])
      (by simp [acceptanceIsNext, hs]) h
    exact ⟨this.1, by simp [this.2, hs]⟩
  | cons e rest =>
    rw [hs] at h
    cases e with
    | busRead addr size =>
      cases h
      exact ⟨.unchanged (by simp) (by simp [engineIsNext, hs]) (by simp [resetIsNext, hs])
        (by simp [acceptanceIsNext, hs]), by simp⟩
    | busWrite addr v size =>
      simp only [takeEvent, Host.Outcome.next.injEq] at h
      subst h
      obtain ⟨k, e, hk⟩ | ⟨hz, hr, hp, e⟩ :=
        busWrite_cases addr v size { s with schedule := rest }
      · rw [e]
        refine ⟨.unchanged rfl (by simp [engineIsNext, hs]) (by simp [resetIsNext, hs]) ?_, rfl⟩
        simp only [acceptanceIsNext, hs]
        by_contra hc
        simp only [Bool.not_eq_false, Bool.and_eq_true, beq_iff_eq] at hc
        have := hk hc.1.1 hc.1.2
        simp_all
      · rw [e]
        have ha : acceptanceIsNext s = true := by
          simp only at hp
          simp [acceptanceIsNext, hs, hr, hz, hp]
        obtain ⟨i, hd, ea⟩ | ⟨er, hd, ea⟩ := acceptWord_cases v { s with schedule := rest }
        · rw [ea]
          exact ⟨.accepted v i hp hd ha rfl, rfl⟩
        · rw [ea]
          exact ⟨.rejected v er hp hd ha rfl, rfl⟩
    | engine =>
      have := engineTurn_change (s := s) (u := { s with schedule := rest }) rfl
        (by simp [engineIsNext, hs]) (by simp [resetIsNext, hs]) (by simp [acceptanceIsNext, hs]) h
      exact ⟨this.1, by simp [this.2]⟩
    | reset =>
      cases h
      exact ⟨.reset (by simp [resetIsNext, hs]) rfl, rfl⟩

/-- A run of any machine takes its first step first. -/
theorem run_succ_of_step (M : Host.Core) {s t : M.State} (h : M.step s = .next t) (n : Nat) :
    M.run (n + 1) s = M.run n t := by
  simp only [Host.Core.run, h]

/-- A run of this machine takes its first step first. -/
theorem core_run_succ {s t : State} (h : step s = .next t) (n : Nat) :
    Sys2Proof.core.run (n + 1) s = Sys2Proof.core.run n t :=
  run_succ_of_step Sys2Proof.core h n

end Sys2Proof.Machine
end

