-- ==== Sys2Proof/Laws/Tables.lean ====
section
/-! SUPPORT. The table operations: what the bijection check says, and what one bit write and the bit permutation do. -/

namespace Sys2Proof.Machine

theorem mem_positions (i : Fin 16) : i ∈ positions := by
  revert i
  decide

theorem positions_nodup : positions.Nodup := by decide

/-- The check of R11 says that the table is injective. -/
theorem isBijection_iff (t : Table) : isBijection t = true ↔ ∀ i j : Fin 16, t[i] = t[j] → i = j := by
  unfold isBijection
  simp only [List.all_eq_true, mem_positions, forall_true_left, Bool.or_eq_true, beq_iff_eq, bne_iff_ne]
  exact forall₂_congr fun i j => ⟨fun h e => h.resolve_right fun n => n e,
    fun h => or_iff_not_imp_right.2 fun n => h (not_not.1 n)⟩

/-- Writing one bit changes that bit alone. -/
theorem writeBit_getLsbD (y : Block) (p : Nibble) (b : Bool) (q : Nat) (hq : q < 16) :
    (writeBit y p b).getLsbD q = if q = p.toNat then b else y.getLsbD q := by
  unfold writeBit
  have hp := p.isLt
  by_cases h : q = p.toNat
  · subst h
    simp [hq]
  · rcases lt_or_gt_of_ne h with hl | hl
    · simp [h, hl, hq]
    · simp [h, hq, show ¬ q < p.toNat by omega, show q - p.toNat ≠ 0 by omega,
        BitVec.getLsbD_ofBool]

/-- The loop of `perm16` leaves a position that it does not write. -/
theorem foldl_writeBit_other (t : Table) (x : Block) (q : Nat) (hq : q < 16) (l : List (Fin 16)) (y : Block)
    (h : ∀ i ∈ l, t[i].toNat ≠ q) :
    (l.foldl (fun y i => writeBit y t[i] (x.getLsbD i.val)) y).getLsbD q = y.getLsbD q := by
  induction l generalizing y with
  | nil => rfl
  | cons i l ih =>
    rw [List.foldl_cons, ih _ fun j hj => h j (List.mem_cons_of_mem i hj), writeBit_getLsbD _ _ _ _ hq,
      if_neg fun e => h i List.mem_cons_self e.symm]

/-- Bit i of the operand is at position `T[i]` of the permuted block, for an injective table (R150). -/
theorem perm16_bit (t : Table) (ht : ∀ i j : Fin 16, t[i] = t[j] → i = j) (x : Block) (i : Fin 16) :
    (perm16 x t).getLsbD (t[i]).toNat = x.getLsbD i.val := by
  obtain ⟨before, after, hl⟩ := List.append_of_mem (mem_positions i)
  have hn : i ∉ after := by
    have := positions_nodup
    rw [hl] at this
    exact (List.nodup_cons.1 (List.nodup_append.1 this).2.1).1
  unfold perm16
  rw [hl, List.foldl_append, List.foldl_cons, foldl_writeBit_other t x _ (t[i]).isLt after, writeBit_getLsbD _ _ _ _ (t[i]).isLt, if_pos rfl]
  intro j hj e
  exact hn (ht j i (BitVec.eq_of_toNat_eq e) ▸ hj)

end Sys2Proof.Machine
end

