-- ==== Sys2Proof/Tests/Slice0.lean ====
section
/-! SUPPORT. Tests with expected values from spec/95_test_vectors.md and the rules, never from the model; and for every
statement with hypotheses a witness that meets them. -/

namespace Sys2Proof.Tests

open Sys2Proof.Machine

/-! ## WellFormed refuses each ill-formed term -/

theorem test_wellFormed_refuses_enc_without_rounds : ¬ (Instr.enc 0 0x4869).WellFormed := by decide
theorem test_wellFormed_refuses_dec_without_rounds : ¬ (Instr.dec 0 0x4869).WellFormed := by decide
theorem test_wellFormed_refuses_sac_without_rounds : ¬ (Instr.sac 0 0x4869).WellFormed := by decide
theorem test_wellFormed_refuses_bic_without_rounds : ¬ (Instr.bic 0 0x4869).WellFormed := by decide
theorem test_wellFormed_accepts_rounds_one_and_255 :
    (Instr.enc 1 0).WellFormed ∧ (Instr.bic 255 0xFFFF).WellFormed := by decide

/-! ## Words written out from 30_encoding.md R100 and R106: OP, RSV, ROUNDS, DATA -/

theorem test_decode_sbox : decode 0b0001_0000_00000000_0000000000000111 = .ok (.sbox 7) := by decide
theorem test_decode_sboxInv : decode 0b0010_0000_00000000_0000000000001101 = .ok (.sboxInv 13) := by decide
theorem test_decode_sub : decode 0b0011_0000_00000000_0100100001101001 = .ok (.sub 0x4869) := by decide
theorem test_decode_subInv : decode 0b0100_0000_00000000_1101010010111010 = .ok (.subInv 0xD4BA) := by decide
theorem test_decode_perm : decode 0b0101_0000_00000000_0100100001101001 = .ok (.perm 0x4869) := by decide
theorem test_decode_permInv : decode 0b0110_0000_00000000_0101101000100001 = .ok (.permInv 0x5A21) := by decide
theorem test_decode_enc : decode 0b0111_0000_00000100_0100100001101001 = .ok (.enc 4 0x4869) := by decide
theorem test_decode_dec : decode 0b1000_0000_11111111_0000000000000000 = .ok (.dec 255 0) := by decide
theorem test_decode_sac : decode 0b1001_0000_00000001_1000000000000001 = .ok (.sac 1 0x8001) := by decide
theorem test_decode_bic : decode 0b1010_0000_10000000_0000000000000010 = .ok (.bic 128 2) := by decide

/-- 95_test_vectors.md section 2: the words with errors. -/
theorem test_decode_errors :
    decode 0x00000000 = .error .illegal ∧ decode 0xB0000000 = .error .illegal ∧
      decode 0xF0FFFFFF = .error .illegal ∧ decode 0x10000017 = .error .reserved ∧
      decode 0x11000007 = .error .reserved ∧ decode 0x10010007 = .error .reserved ∧
      decode 0x30010000 = .error .reserved ∧ decode 0x70004869 = .error .rounds ∧
      decode 0x71004869 = .error .reserved ∧ decode 0x90000000 = .error .rounds ∧
      decode 0xA0000000 = .error .rounds := by decide

/-- 30_encoding.md R111: the examples of the assembler. -/
theorem test_encode_examples :
    encode (.enc 4 0x4869) = 0x70044869 ∧ encode (.sbox 7) = 0x10000007 ∧
      encode (.permInv 0x5A21) = 0x60005A21 ∧ encode (.sac 255 0xFFFF) = 0x90FFFFFF := by decide

/-! ## One command from reset -/

/-- The core after one step that runs a word, from reset. -/
def coreAfter (w : Nat) : Option Arch :=
  match step (State.reset.withFetchWord 32 w) with
  | .next t => some t.arch
  | .fault _ => none
  | .refused _ => none

/-- RESULT, STATUS and CMD after one step that runs a word. -/
def resultAfter (w : Nat) : Option (Block × Word × Word) :=
  (coreAfter w).map fun a => (a.result, statusWord a, a.cmd)

/-- Section 3 of the vectors: SBOX 4 and SBOXINV 13. -/
theorem test_sbox : resultAfter 0x10000004 = some (0x000D, 0x2, 0x10000004) := by decide
theorem test_sboxInv : resultAfter 0x2000000D = some (0x0004, 0x2, 0x2000000D) := by decide

/-- Section 4 of the vectors: lanes with four different nibbles. -/
theorem test_sub : resultAfter 0x30001234 = some (0xFE1D, 0x2, 0x30001234) := by decide
theorem test_subInv : resultAfter 0x40001234 = some (0x3C08, 0x2, 0x40001234) := by decide

/-- Section 5 of the vectors: bit 1 goes to bit 4. -/
theorem test_perm : resultAfter 0x50000002 = some (0x0010, 0x2, 0x50000002) := by decide
theorem test_permInv : resultAfter 0x60005A21 = some (0x4869, 0x2, 0x60005A21) := by decide

/-- Section 6 of the vectors: the two ends of scenario 1 (R171). -/
theorem test_enc : resultAfter 0x70044869 = some (0xB79B, 0x2, 0x70044869) := by decide +kernel
theorem test_dec : resultAfter 0x8004B79B = some (0x4869, 0x2, 0x8004B79B) := by decide +kernel

/-- Section 7 of the vectors: SAC 1, 0x4869. -/
theorem test_sac :
    (coreAfter 0x90014869).map (fun a => (a.orig, a.sacSum, a.trial[0], a.trial[15])) =
      some (0xBC3A, 40, 0xAD2A, 0x34B2) := by decide +kernel

/-- Section 8 of the vectors, A4: BIC 1, 0x4869. -/
theorem test_bic :
    (coreAfter 0xA0014869).map (fun a => (a.orig, a.bicScore, a.bicZv, columnCount a.gram 15)) =
      some (0xBC3A, 261912178, 0, 14) := by decide +kernel

/-- Section 8 of the vectors, A2: column 10 has zero variance. -/
theorem test_bic_zero_variance :
    (coreAfter 0xA0020000).map (fun a => (a.bicScore, a.bicZv)) = some (243128882, 0x0400) := by
  decide +kernel

/-- Section 2 of the vectors: a word with an error ends at once, with the word in CMD. -/
theorem test_command_error : resultAfter 0x70004869 = some (0, 0x36, 0x70004869) := by decide
theorem test_command_error_priority : resultAfter 0x71004869 = some (0, 0x26, 0x71004869) := by decide

/-! ## The port -/

/-- A core with ENC 4, 0x4869 pending. -/
def busyState : State :=
  { State.reset with
    arch := { Arch.reset with cmd := 0x70044869, pending := some (.enc 4 0x4869) } }

/-- A core whose last word was illegal. -/
def failedState : State :=
  { State.reset with arch := { Arch.reset with done := true, err := true, ecode := 1 } }

/-- The response to one transaction. -/
def responseTo (s : State) (e : Event) : Option Response :=
  match step (scheduled e s) with
  | .next t => t.responses.head?
  | .fault _ => none
  | .refused _ => none

/-- Section 9 of the vectors: reads. -/
theorem test_bus_reads :
    responseTo failedState (.busRead 0x004 (.single 32)) = some (.data 0x00000016) ∧
      responseTo State.reset (.busRead 0x002 (.single 32)) = some (.busError .addr) ∧
      responseTo State.reset (.busRead 0x080 (.single 32)) = some (.busError .addr) ∧
      responseTo State.reset (.busRead 0x0FC (.single 32)) = some (.busError .addr) ∧
      responseTo State.reset (.busRead 0x1FC (.single 32)) = some (.data 0) ∧
      responseTo State.reset (.busRead 0x004 (.single 8)) = some (.busError .size) ∧
      responseTo State.reset (.busRead 0x081 (.single 16)) = some (.busError .size) ∧
      responseTo busyState (.busRead 0x00C (.single 32)) = some (.data 0) ∧
      responseTo busyState (.busRead 0x004 (.single 32)) = some (.data 1) := by decide

/-- Section 9 of the vectors: a read of the write set of a pending command returns a free word. -/
theorem test_bus_read_of_pending_result :
    responseTo busyState (.busRead 0x008 (.single 32)) = some (.data (Config.freeWord 0)) := rfl

/-- Section 9 of the vectors: writes. -/
theorem test_bus_writes :
    responseTo State.reset (.busWrite 0x008 0 (.single 32)) = some (.busError .ro) ∧
      responseTo State.reset (.busWrite 0x020 0 (.single 32)) = some (.busError .ro) ∧
      responseTo State.reset (.busWrite 0x002 0x70044869 (.single 32)) = some (.busError .addr) ∧
      responseTo busyState (.busWrite 0x000 0x70044869 (.single 32)) = some (.busError .busy) ∧
      responseTo State.reset (.busWrite 0x000 0x70044869 (.single 32)) = some .written ∧
      responseTo State.reset (.busWrite 0x000 0x70044869 (.burst 32 2)) = some (.busError .size) := by
  decide

/-! ## The host's tools -/

/-- Section 1 of the vectors, S2: "Hi" and "H". -/
theorem test_framing : frameText [72, 105] = [0x4869] ∧ frameText [72] = [0x4820] := by decide

/-- Section 2 of the vectors: `ENC 0x4869`, with a comment, and `SBOX 16`. -/
theorem test_assembler :
    assembleText ['E', 'N', 'C', ' ', '0', 'x', '4', '8', '6', '9', ' ', ';', '4'] =
        some [.wr 0x000 (.word 0x70044869)] ∧
      assembleText ['S', 'B', 'O', 'X', ' ', '1', '6'] = none ∧
      assembleText ['S', 'A', 'C', ' ', '2', '5', '5', ',', ' ', '0', 'x', 'f', 'F', 'f', 'f'] =
        some [.wr 0x000 (.word 0x90FFFFFF)] := by decide

/-- A program that ends in `SBOX 4` without a WAIT ends with BUSY = 0 and RESULT = 0x000D (R266, R133). -/
theorem test_run_goes_to_its_end :
    let h := runProgram [(issue (.sbox 4), { engineFirst := false, polls := 0 })] State.reset
    hasEnded h = true ∧ (observation h).2.result = 0x000D ∧ (observation h).1 = [] := by decide

/-! ## Witnesses: each meets the hypotheses of the statement it is named after -/

theorem witness_CipherCommandsIterateTheRound : (255 : RoundCount) ≠ 0 := by decide
theorem witness_SacFillsTheSampleAndTheSum : (1 : RoundCount) ≠ 0 := by decide
theorem witness_BicFillsTheMatrixAndTheExactScore : (4 : RoundCount) ≠ 0 := by decide

theorem witness_CompletionKeepsRegistersOutsideItsWriteSet :
    (Instr.sac 1 0).WellFormed ∧ Reg.result ≠ .status ∧
      listedWriteSet (Instr.sac 1 0).opcode Reg.result.offset.toNat = false := by decide

theorem witness_DecodeInvertsEncode :
    (Instr.dec 255 0xFFFF).WellFormed ∧ decode 0x80FFFFFF = .ok (.dec 255 0xFFFF) := by decide

/-- One word for each clause, at the boundaries of OP. -/
theorem witness_DecodeChecksInOrder :
    decode 0x0FFFFFFF = .error .illegal ∧ decode 0xB0000000 = .error .illegal ∧
      decode 0xA1000000 = .error .reserved ∧ decode 0x20000010 = .error .reserved ∧
      decode 0x60010000 = .error .reserved ∧ decode 0x7000FFFF = .error .rounds ∧
      decode 0x30000010 = .ok (.sub 0x10) ∧ decode 0xA0010000 = .ok (.bic 1 0) := by decide

theorem witness_ErrorCodesOfIllegalReservedAndRounds : State.reset.arch.pending = none := rfl

theorem witness_RowsMeetMatchAndMask :
    decodeRow 0x70000000 = some (.enc 0 0) ∧ decodeRow 0x70010000 = some (.enc 1 0) ∧
      (Instr.enc 1 0).WellFormed ∧ ¬ (Instr.enc 0 0).WellFormed := by decide

/-- One address for each clause, at the boundaries of the map. -/
theorem witness_BusReadAnswersAndChangesNothing :
    AccessSize.burst 32 1 ≠ .single 32 ∧ badAddress 0x001 ∧ badAddress 0x080 ∧ badAddress 0x0FC ∧
      ¬ badAddress 0x07C ∧ ¬ badAddress 0x100 ∧ ¬ badAddress 0x1FC ∧
      busyState.arch.pending = some (.enc 4 0x4869) ∧
      listedWriteSet (Instr.enc 4 0x4869).opcode 0x008 = true ∧
      listedWriteSet (Instr.enc 4 0x4869).opcode 0x00C = false := by decide

/-- One transaction for each clause. -/
theorem witness_BusWriteAcceptsOnlyWordsToCmd :
    AccessSize.single 16 ≠ .single 32 ∧ badAddress 0x003 ∧ ¬ badAddress 0x004 ∧
      (0x004 : Addr) ≠ 0x000 ∧ busyState.arch.pending ≠ none ∧ State.reset.arch.pending = none ∧
      decode 0x1000000F = .ok (.sbox 15) ∧ decode 0x10000010 = .error .reserved := by decide

theorem witness_BusErrorChangesNoState :
    step (scheduled (.busRead 0x080 (.single 32)) busyState) =
        .next (respond (.busError .addr) busyState) ∧
      (respond (.busError .addr) busyState).responses = .busError .addr :: busyState.responses :=
  ⟨rfl, rfl⟩

theorem witness_CommandErrorIsPrecise :
    State.reset.arch.pending = none ∧ decode 0xF0FFFFFF = .error .illegal := by decide

/-- The failed core meets the STATUS invariants. -/
theorem failedState_statusConsistent : StatusConsistent failedState.arch := by
  constructor <;> decide

theorem witness_ErrorStatusStaysUntilAcceptanceOrReset :
    StatusConsistent (scheduled .engine failedState).arch ∧
      (scheduled .engine failedState).arch.err = true ∧
      step (scheduled .engine failedState) = .next failedState ∧
      acceptanceIsNext (scheduled .engine failedState) = false ∧
      resetIsNext (scheduled .engine failedState) = false :=
  ⟨failedState_statusConsistent, rfl, rfl, rfl, rfl⟩

theorem witness_SacPercentIsTheExactPercentage :
    ({ Arch.reset with sacSum := 256 } : Arch).sacSum.toNat ≤ 256 := by decide

theorem witness_InverseTableInvertsTheTable :
    ∀ i j : Fin 16, Tables.default.sbox[i] = Tables.default.sbox[j] → i = j := by decide +kernel

theorem witness_SubstitutionAndItsInverseUndoEachOther :
    Machine.Tables.areValid Tables.default = true := by decide +kernel

theorem witness_PermutationAndItsInverseUndoEachOther :
    Machine.Tables.areValid Tables.identity = true := by decide +kernel

theorem witness_PermutationIsLinear : isBijection Tables.default.perm = true := by decide +kernel

theorem witness_DecryptionUndoesEncryption :
    Machine.Tables.areValid Tables.default = true ∧ (255 : RoundCount) ≠ 0 := by decide +kernel

theorem witness_EncryptionIsABijection :
    Machine.Tables.areValid Tables.default = true ∧ 1 ≤ 1 := by decide +kernel

theorem witness_RoundCountsAdd :
    (254 : RoundCount) ≠ 0 ∧ (1 : RoundCount) ≠ 0 ∧
      (254 : RoundCount).toNat + (1 : RoundCount).toNat ≤ 255 := by decide

theorem witness_SacSumIsAtLeastSixteen :
    Machine.Tables.areValid Tables.identity = true ∧ (1 : RoundCount) ≠ 0 := by decide +kernel

theorem witness_IdentityConfigurationGivesSumSixteen : (1 : RoundCount) ≠ 0 := by decide
theorem witness_SacAndBicWriteTheSameSample : (4 : RoundCount) ≠ 0 := by decide

/-- The trials of the identity configuration for the block 0: trial i has bit i alone. -/
theorem witness_CorrelationIsPearsons :
    (0 : Fin 16) ≠ 15 ∧ columnVariance (gramOf (Vector.ofFn bitMask)) 0 ≠ 0 ∧
      columnVariance (gramOf (Vector.ofFn bitMask)) 15 ≠ 0 := by decide +kernel

theorem witness_BicScoreIsAtMostOne : (255 : RoundCount) ≠ 0 := by decide
theorem witness_IdentityConfigurationGivesOneFifteenth : (2 : RoundCount) ≠ 0 := by decide

theorem witness_EngineStepRunsThePendingCommand :
    busyState.arch.pending = some (.enc 4 0x4869) ∧ busyState.schedule = [] ∧
      State.reset.arch.pending = none ∧ State.reset.schedule = [] := by decide

theorem witness_StepRunsTheDecodedCommand :
    State.reset.arch.pending = none ∧ decode 0x70044869 = .ok (.enc 4 0x4869) ∧
      decode 0x00000000 = .error .illegal := by decide

theorem witness_CoreIsIdleAfterReset : State.reset.arch = State.reset.arch := rfl

/-- A table with an entry twice, and the default ones. -/
theorem witness_ElaborationRefusesTablesThatAreNoBijection :
    Machine.Tables.areValid { Tables.default with sbox := Vector.replicate 16 0 } = false ∧
      Machine.Tables.areValid Tables.default = true := by decide +kernel

theorem witness_StepKeepsStatusConsistent :
    StatusConsistent failedState.arch ∧ step failedState = .next failedState :=
  ⟨failedState_statusConsistent, rfl⟩

theorem witness_StepKeepsCommandRecorded :
    CommandRecorded (scheduled .reset busyState).arch ∧
      step (scheduled .reset busyState) = .next (resetCore busyState) := by
  refine ⟨⟨?_, ?_, ?_⟩, rfl⟩
  · intro i h
    cases h
    rfl
  · exact fun h => nomatch h
  · exact fun h => nomatch h

theorem witness_StepKeepsRegistersInRange :
    RegistersInRange busyState.arch ∧
      step (scheduled (.busRead 0x000 (.single 32)) busyState) =
        .next (respond (.data 0x70044869) busyState) := by
  refine ⟨⟨?_, ?_, ?_, ?_, ?_⟩, rfl⟩ <;> decide +kernel

theorem witness_StepKeepsEvaluatorCoherent :
    EvaluatorCoherent busyState.arch ∧
      step (scheduled (.busRead 0x000 (.single 32)) busyState) =
        .next (respond (.data 0x70044869) busyState) :=
  ⟨⟨.inl ⟨rfl, rfl⟩, .inl rfl, .inl ⟨rfl, rfl, rfl⟩⟩, rfl⟩

theorem witness_StatusChangesOnlyAtAcceptanceCompletionAndReset :
    step (scheduled .reset failedState) = .next (resetCore failedState) ∧
      regWord defaultConfig (resetCore failedState).arch .status ≠
        regWord defaultConfig (scheduled .reset failedState).arch .status :=
  ⟨rfl, by decide⟩

theorem witness_DataRegistersChangeOnlyAtCompletionAndReset :
    step (scheduled .engine failedState) = .next failedState ∧
      ¬ (engineIsNext (scheduled .engine failedState) = true ∧
        (scheduled .engine failedState).arch.pending ≠ none) ∧
      resetIsNext (scheduled .engine failedState) = false :=
  ⟨rfl, by decide, rfl⟩

theorem witness_HostCannotDisturbAPendingCommand :
    (scheduled (.busWrite 0x000 0 (.single 32)) busyState).arch.pending ≠ none ∧
      engineIsNext (scheduled (.busWrite 0x000 0 (.single 32)) busyState) = false ∧
      resetIsNext (scheduled (.busWrite 0x000 0 (.single 32)) busyState) = false ∧
      step (scheduled (.busWrite 0x000 0 (.single 32)) busyState) =
        .next (respond (.busError .busy) busyState) :=
  ⟨by decide, rfl, rfl, rfl⟩

theorem witness_PendingCommandCompletes : busyState.arch.pending = some (.enc 4 0x4869) := rfl

/-- A text of three bytes has a second block, padded. -/
theorem witness_TextIsFramedBigEndian : 1 < (([72, 105, 33] : List (BitVec 8)).length + 1) / 2 := by decide

/-- One line for each clause, at the ends of the ranges. -/
theorem witness_AssemblerGivesOnlyValidWords :
    assembleCommand .enc none 0xFFFF = some (.enc 4 0xFFFF) ∧ assembleCommand .enc (some 256) 1 = none ∧
      assembleCommand .sboxInv none 15 = some (.sboxInv 15) ∧
      assembleCommand .sboxInv none 16 = none := by decide

end Sys2Proof.Tests
end

section
/-! Proofs of the family 00_scope.md: when elaboration builds a machine, and which one (R11). -/

namespace Sys2Proof.Machine

/-- The check of R11 on both tables says that both are injective. -/
theorem Tables.areValid_iff (t : Tables) :
    Tables.areValid t = true ↔
      (∀ i j : Fin 16, t.sbox[i] = t.sbox[j] → i = j) ∧ ∀ i j : Fin 16, t.perm[i] = t.perm[j] → i = j := by
  rw [Tables.areValid, Bool.and_eq_true, isBijection_iff, isBijection_iff]

theorem Tables.areValid_default : Tables.areValid Tables.default = true := by decide

theorem elaborate_of_areValid {t : Tables} (h : Tables.areValid t = true) :
    elaborate t = .ok (coreWith (configOf t)) := if_pos h

theorem elaborate_of_not_areValid {t : Tables} (h : ¬ Tables.areValid t = true) :
    elaborate t = .error .invalidTables := if_neg h

/-- Under the configuration of this hardware each command means what it means in this machine. -/
theorem execWith_defaultConfig : execWith defaultConfig = exec := by
  funext i s
  cases i <;> rfl

theorem stepWith_defaultConfig : stepWith defaultConfig = step := by
  funext s
  rw [stepWith, execWith_defaultConfig, step]

theorem coreWith_defaultConfig : coreWith defaultConfig = Sys2Proof.core := by
  rw [coreWith, stepWith_defaultConfig, Sys2Proof.core]

/-- Settles O48: the check of elaboration is injectivity of both tables, the default tables pass it, and the machine of
their configuration takes the steps of this machine. -/
theorem elaborationRefusesTablesThatAreNoBijection :
    Obligations.ElaborationRefusesTablesThatAreNoBijection := by
  refine ⟨fun t => ⟨fun h => ?built, fun h => ?refused⟩, ?default⟩
  case built => exact elaborate_of_areValid ((Tables.areValid_iff t).2 h)
  case refused => exact elaborate_of_not_areValid (mt (Tables.areValid_iff t).1 h)
  case default =>
    calc elaborate Tables.default
      _ = .ok (coreWith defaultConfig) := elaborate_of_areValid Tables.areValid_default
      _ = .ok Sys2Proof.core := congrArg Except.ok coreWith_defaultConfig

end Sys2Proof.Machine
end

section
/-! Proofs of the family 10_state.md: the STATUS invariants (R35), SAC_PCT (R40), the configuration words (R43) and the
reserved bits (R48). -/

namespace Sys2Proof.Machine

/-! ## STATUS (R35) -/

/-- Every code of R221 is nonzero, so ECODE = 0 says that there is no error. -/
theorem cmdError_code_ne_zero (e : CmdError) : e.code ≠ 0 := by
  cases e <;> decide

theorem statusConsistent_reset : StatusConsistent Arch.reset where
  busy h := absurd rfl h
  error := by decide
  errorDone h := nomatch h
  fresh _ _ := rfl

/-- A completion leaves BUSY = 0, DONE = 1 and no error, whatever stood before it. -/
theorem statusConsistent_completeCommand (a : Arch) : StatusConsistent (completeCommand a) where
  busy h := absurd rfl h
  error := by simp
  errorDone h := nomatch h
  fresh _ h := nomatch h

/-- A command error leaves BUSY = 0, DONE = 1, ERR = 1 and a nonzero code, whatever stood before it. -/
theorem statusConsistent_commandError (e : CmdError) (a : Arch) : StatusConsistent (commandError e a) where
  busy h := absurd rfl h
  error := iff_of_true rfl (cmdError_code_ne_zero e)
  errorDone _ := ⟨rfl, rfl⟩
  fresh _ h := nomatch h

/-- An accepted valid command leaves BUSY = 1 and the rest of STATUS 0, whatever stood before it. -/
theorem statusConsistent_beginCommand (i : Instr) (a : Arch) : StatusConsistent (beginCommand i a) where
  busy _ := ⟨rfl, rfl, rfl⟩
  error := by simp
  errorDone h := nomatch h
  fresh h := nomatch h

theorem CoreChange.statusConsistent {s : State} {b : Arch} (hs : StatusConsistent s.arch)
    (hc : CoreChange s b) : StatusConsistent b := by
  cases hc with
  | unchanged h => exact h ▸ hs
  | completed _ _ _ _ h => exact h ▸ statusConsistent_completeCommand _
  | failed _ _ _ _ h => exact h ▸ statusConsistent_commandError _ _
  | accepted _ _ _ _ _ h => exact h ▸ statusConsistent_beginCommand _ _
  | rejected _ _ _ _ _ h => exact h ▸ statusConsistent_commandError _ _
  | reset _ h => exact h ▸ statusConsistent_reset

/-- Settles O49: a step leaves the core alone, or ends in an acceptance, a completion, a command error or reset, each of
which sets STATUS to a consistent value. -/
theorem stepKeepsStatusConsistent : Obligations.StepKeepsStatusConsistent :=
  ⟨statusConsistent_reset, fun _ _ hs h => (step_change h).1.statusConsistent hs⟩

/-! ## SAC_PCT (R40) -/

/-- In the range of SAC_SUM the product fits in the 13 bits of SAC_PCT. -/
theorem toNat_sacPct {n : BitVec 9} (h : n.toNat ≤ 256) : (sacPct n).toNat = n.toNat * 25 := by
  rw [sacPct, BitVec.toNat_mul, BitVec.toNat_setWidth, show BitVec.toNat (25 : BitVec 13) = 25 from rfl]
  omega

/-- Settles O22: the word of SAC_PCT is the product, and 25/64 is 100/256. -/
theorem sacPercentIsTheExactPercentage : Obligations.SacPercentIsTheExactPercentage := by
  intro a h
  have hpct : (regWord defaultConfig a .sacPct).toNat = a.sacSum.toNat * 25 := by
    rw [regWord, BitVec.toNat_setWidth_of_le (by decide), toNat_sacPct h]
  refine ⟨hpct, by omega, ?exact, by decide, by decide⟩
  rw [hpct]
  push_cast
  ring

/-! ## The configuration words (R43) -/

/-- Nibbles shifted to successive places and joined: bit i is bit i mod 4 of nibble i div 4. -/
theorem foldl_packNibbles_getLsbD (f : Nat → Nibble) (n : Nat) (hn : n ≤ 8) (i : Nat) :
    ((List.range n).foldl (fun w k => w ||| ((f k).setWidth 32 <<< (4 * k))) (0 : Word)).getLsbD i =
      (decide (i < 4 * n) && (f (i / 4)).getLsbD (i % 4)) := by
  induction n with
  | zero => simp
  | succ n ih =>
    rw [List.range_succ, List.foldl_append, List.foldl_cons, List.foldl_nil, BitVec.getLsbD_or,
      ih (by omega), BitVec.getLsbD_shiftLeft, BitVec.getLsbD_setWidth]
    rcases Nat.lt_trichotomy (i / 4) n with h | h | h
    · simp [show i < 4 * n by omega, show i < 4 * (n + 1) by omega]
    · simp [← h, show ¬ i < 4 * (i / 4) by omega, show i < 4 * (i / 4 + 1) by omega, show i < 32 by omega,
        show i - 4 * (i / 4) = i % 4 by omega, show i % 4 < 32 by omega]
    · have : (f n).getLsbD (i - 4 * n) = false := BitVec.getLsbD_of_ge _ _ (by omega)
      simp [this, show ¬ i < 4 * n by omega, show ¬ i < 4 * (n + 1) by omega]

theorem tableAt_ofNat (t : Table) {n : Nat} (h : n < 16) : tableAt t (BitVec.ofNat 4 n) = t[n] := by
  simp only [tableAt, BitVec.toNat_ofNat, Nat.mod_eq_of_lt h]

/-- Entry `base + k` stands at bits [4k+3:4k] of its word. -/
theorem extractLsb'_packEntries (t : Table) (base : Nat) (k : Fin 8) (h : base + k.val < 16) :
    (packEntries t base).extractLsb' (4 * k.val) 4 = t[base + k.val] := by
  rw [← tableAt_ofNat t h]
  ext j hj
  have hbit := foldl_packNibbles_getLsbD (fun k => tableAt t (BitVec.ofNat 4 (base + k))) 8 (by omega)
    (4 * k.val + j)
  rw [show (4 * k.val + j) / 4 = k.val by omega, show (4 * k.val + j) % 4 = j by omega,
    decide_eq_true (by omega : 4 * k.val + j < 4 * 8), Bool.true_and] at hbit
  rw [BitVec.getElem_extractLsb', packEntries, hbit, BitVec.getLsbD_eq_getElem hj]

/-- The port finds each register at its own offset. -/
theorem regAt_offset (r : Reg) : regAt r.offset = some r := by
  cases r with
  | config k => revert k; decide
  | trial i => revert i; decide
  | bicGram m => revert m; decide
  | _ => decide

/-- A scheduled event is what a step takes, and it is used up. -/
theorem step_scheduled (e : Event) (s : State) :
    step (scheduled e s) = takeEvent defaultConfig exec e s := rfl

/-- A 32-bit write to a mapped register other than CMD is refused with RO. -/
theorem busWrite_of_ne_cmd {addr : Addr} {r : Reg} (hr : regAt addr = some r) (hc : r ≠ .cmd) (v : Word)
    (s : State) : busWrite addr v (.single 32) s = respond (.busError .ro) s := by
  rw [busWrite, if_neg (not_not.2 rfl), hr]
  cases r with
  | cmd => exact absurd rfl hc
  | _ => rfl

theorem toNat_offset_config (k : Fin 8) : (Reg.config k).offset.toNat = 0x020 + 4 * k.val := by
  revert k
  decide

theorem step_write_config (k : Fin 8) (v : Word) (s : State) :
    step (scheduled (.busWrite (Reg.config k).offset v (.single 32)) s) =
      .next (answered (.busError .ro) s) := by
  rw [step_scheduled]
  exact congrArg Host.Outcome.next (busWrite_of_ne_cmd (regAt_offset _) (by simp) v s)

/-- Settles O23: each word packs its eight entries, those of the default tables evaluate to the listed words, and the
port refuses a write to a configuration word. -/
theorem configurationReadsBackTheTables : Obligations.ConfigurationReadsBackTheTables := by
  refine ⟨fun cfg a k => ?packing, fun a => ?values, fun s k v => ⟨toNat_offset_config k, step_write_config k v s⟩⟩
  case packing =>
    have low (t : Table) : (packEntries t 0).extractLsb' (4 * k.val) 4 = t[k.val] := by
      simpa only [Nat.zero_add] using extractLsb'_packEntries t 0 k (by omega)
    have high (t : Table) := extractLsb'_packEntries t 8 k (by omega)
    exact ⟨low _, high _, low _, high _, low _, high _, low _, high _⟩
  case values =>
    simp only [regWord]
    decide

/-! ## The reserved bits (R48) -/

/-- A field at bit 0 meets no mask that has only bits above the field. -/
theorem setWidth_and_eq_zero {w n : Nat} (x : BitVec w) {m : BitVec n} (hm : m.setWidth w = 0) :
    x.setWidth n &&& m = 0 := by
  ext i hi
  by_cases hw : i < w
  · have hbit : m[i] = false := by
      calc m[i]
        _ = (m.setWidth w)[i] := by rw [BitVec.getElem_setWidth, BitVec.getLsbD_eq_getElem]
        _ = false := by simp [hm]
    simp [hbit]
  · simp [BitVec.getLsbD_of_ge x i (by omega)]

/-- A mask is held to a word of two parts part by part. -/
theorem append_and_append_eq_zero {w v : Nat} {x m : BitVec w} {y n : BitVec v} (hx : x &&& m = 0)
    (hy : y &&& n = 0) : (x ++ y) &&& (m ++ n) = 0 := by
  rw [BitVec.and_append, hx, hy]
  exact BitVec.zero_append_zero

theorem statusWord_reserved (a : Arch) : statusWord a &&& 0xFFFFFF08 = 0 := by
  have hmask : (0xFFFFFF08 : Word) =
      (0xFFFFFF : BitVec 24) ++ (0 : BitVec 4) ++ (1 : BitVec 1) ++ (0 : BitVec 1) ++ (0 : BitVec 1)
        ++ (0 : BitVec 1) := by decide
  have unmasked {w : Nat} (x : BitVec w) : x &&& 0 = 0 := BitVec.and_zero
  rw [hmask, statusWord]
  exact append_and_append_eq_zero (append_and_append_eq_zero (append_and_append_eq_zero
    (append_and_append_eq_zero (append_and_append_eq_zero (by decide) (unmasked a.ecode)) (by decide))
    (unmasked _)) (unmasked _)) (unmasked _)

theorem gramWord_reserved (g : BicMatrix) (m : Fin 64) : gramWord g m &&& 0xE0E0E0E0 = 0 := by
  have hmask : (0xE0E0E0E0 : Word) =
      (0xE0 : BitVec 8) ++ (0xE0 : BitVec 8) ++ (0xE0 : BitVec 8) ++ (0xE0 : BitVec 8) := by decide
  have lane (x : BitVec 5) : x.setWidth 8 &&& 0xE0 = 0 := setWidth_and_eq_zero x (by decide)
  rw [hmask]
  exact append_and_append_eq_zero
    (append_and_append_eq_zero (append_and_append_eq_zero (lane _) (lane _)) (lane _)) (lane _)

/-- Settles O25: STATUS and BIC_GRAM field by field, every other register by its one field at bit 0. -/
theorem reservedBitsReadZero : Obligations.ReservedBitsReadZero := by
  intro a
  have word {w : Nat} (x : BitVec w) (hw : w ≤ 32) : (x.setWidth 32).toNat = x.toNat :=
    BitVec.toNat_setWidth_of_le hw
  exact ⟨statusWord_reserved a,
    setWidth_and_eq_zero a.result (by decide),
    setWidth_and_eq_zero a.orig (by decide),
    setWidth_and_eq_zero a.sacSum (by decide),
    setWidth_and_eq_zero (sacPct a.sacSum) (by decide),
    setWidth_and_eq_zero a.bicScore (by decide),
    setWidth_and_eq_zero a.bicZv (by decide),
    fun i => setWidth_and_eq_zero a.trial[i] (by decide),
    gramWord_reserved a.gram,
    rfl,
    word a.result (by decide),
    word a.orig (by decide),
    word a.sacSum (by decide),
    word a.bicScore (by decide),
    word a.bicZv (by decide),
    fun i => word a.trial[i] (by decide)⟩

end Sys2Proof.Machine
end

section
/-! Proofs of the family 20_memory.md: what a bus write does, check by check (R77, R78), and that a bus error changes no
state of the core (R79). -/

namespace Sys2Proof.Machine

/-! ## Addresses and registers (R71, R73, R74) -/

/-- A slot without a register is in 0x080 to 0x0FC, or beyond the map. -/
theorem regOfSlot_eq_none_iff (n : Nat) : regOfSlot n = none ↔ (32 ≤ n ∧ n < 64) ∨ 128 ≤ n := by
  unfold regOfSlot
  split
  case h_9 => split_ifs <;> simp <;> omega
  all_goals simp

/-- The register found in a slot has that slot. -/
theorem slot_of_regOfSlot {n : Nat} {r : Reg} (h : regOfSlot n = some r) : r.slot = n := by
  unfold regOfSlot at h
  split at h
  case h_9 =>
    simp only [imp_false] at *
    split_ifs at h <;> cases h <;> simp only [Reg.slot, Fin.val_ofNat] <;> omega
  all_goals cases h; rfl

/-- The port finds no register exactly at a misaligned address or in the gap of the map. -/
theorem regAt_eq_none_iff (addr : Addr) : regAt addr = none ↔ badAddress addr := by
  have hlt : addr.toNat < 512 := addr.isLt
  unfold regAt
  split
  case isTrue h =>
    rw [regOfSlot_eq_none_iff]
    omega
  case isFalse h => exact iff_of_true rfl (.inl h)

/-- The register found at an address has that offset. -/
theorem offset_of_regAt {addr : Addr} {r : Reg} (h : regAt addr = some r) : r.offset = addr := by
  unfold regAt at h
  split at h
  case isTrue ha =>
    rw [Reg.offset, slot_of_regOfSlot h, Nat.mul_div_cancel' (Nat.dvd_of_mod_eq_zero ha), BitVec.ofNat_toNat, BitVec.setWidth_eq]
  case isFalse => cases h

/-! ## A write, check by check (R77) -/

theorem busWrite_of_size_ne {size : AccessSize} (h : size ≠ .single 32) (addr : Addr) (v : Word) (s : State) :
    busWrite addr v size s = respond (.busError .size) s := if_pos h

theorem busWrite_of_badAddress {addr : Addr} (h : badAddress addr) (v : Word) (s : State) :
    busWrite addr v (.single 32) s = respond (.busError .addr) s := by
  rw [busWrite, if_neg (not_not.2 rfl), (regAt_eq_none_iff addr).2 h]

/-- A 32-bit write to a register's address that is not CMD's meets a register other than CMD. -/
theorem busWrite_of_ne_zero {addr : Addr} (hb : ¬ badAddress addr) (h0 : addr ≠ 0x000) (v : Word) (s : State) :
    busWrite addr v (.single 32) s = respond (.busError .ro) s := by
  obtain ⟨r, hr⟩ := Option.ne_none_iff_exists'.1 (mt (regAt_eq_none_iff addr).1 hb)
  refine busWrite_of_ne_cmd hr ?_ v s
  rintro rfl
  exact h0 (offset_of_regAt hr).symm

theorem busWrite_cmd_of_pending {s : State} (h : s.arch.pending ≠ none) (v : Word) :
    busWrite 0x000 v (.single 32) s = respond (.busError .busy) s :=
  if_pos (Option.isSome_iff_ne_none.2 h)

theorem busWrite_cmd_of_idle {s : State} (h : s.arch.pending = none) (v : Word) :
    busWrite 0x000 v (.single 32) s = respond .written (acceptWord v s) :=
  if_neg (c := s.arch.pending.isSome = true) (by simp [h])

/-- With nothing pending, a command error writes only DONE, ERR and ECODE. -/
theorem commandError_of_idle {a : Arch} (h : a.pending = none) (e : CmdError) :
    commandError e a = { a with done := true, err := true, ecode := e.code } := by
  rw [commandError, ← h]

/-- Settles O17: one lemma for each check of R77 in its order, then the two outcomes of decoding. -/
theorem busWriteAcceptsOnlyWordsToCmd : Obligations.BusWriteAcceptsOnlyWordsToCmd := by
  intro s addr v size
  rw [step_scheduled]
  refine congrArg Host.Outcome.next ?_
  by_cases hsize : size = .single 32
  case neg => rw [if_pos hsize, busWrite_of_size_ne hsize]; rfl
  subst hsize
  rw [if_neg (not_not.2 rfl)]
  split_ifs with hbad hcmd hbusy
  · exact busWrite_of_badAddress hbad v s
  · exact busWrite_of_ne_zero hbad hcmd v s
  · rw [not_not.1 hcmd]
    exact busWrite_cmd_of_pending hbusy v
  · have hidle : s.arch.pending = none := not_not.1 hbusy
    rw [not_not.1 hcmd, busWrite_cmd_of_idle hidle]
    obtain ⟨i, hd, ha⟩ | ⟨e, hd, ha⟩ := acceptWord_cases v s
    · rw [ha, hd]
      rfl
    · rw [ha, hd, commandError_of_idle (by rw [latchCmd_pending, hidle])]
      rfl

/-! ## Bus errors (R79) -/

/-- A command answers no transaction, whether it completes or ends in its error. -/
theorem exec_responses {i : Instr} {s t : State} (h : exec i s = .next t) : t.responses = s.responses := by
  obtain ⟨_, e⟩ | ⟨_, e⟩ := exec_cases i s
  · cases e.symm.trans h
    exact completeWith_responses s _
  · cases e.symm.trans h
    exact endInError_responses s _

/-- The engine's turn answers no transaction. -/
theorem engineTurn_responses {s t : State} (h : engineTurn exec s = .next t) : t.responses = s.responses := by
  unfold engineTurn at h
  split at h
  · exact exec_responses h
  · cases h
    rfl

/-- A write that returns a bus error changes no state of the core: a word it accepts is answered `written`. -/
theorem busWrite_arch_of_busError {addr : Addr} {v : Word} {size : AccessSize} {s : State} {k : BusErrorKind}
    (h : (busWrite addr v size s).responses = .busError k :: s.responses) :
    (busWrite addr v size s).arch = s.arch := by
  obtain ⟨_, e, _⟩ | ⟨_, _, _, e⟩ := busWrite_cases addr v size s
  · rw [e, respond_arch]
  · rw [e, respond_responses] at h
    exact nomatch (List.cons.inj h).1

/-- Settles O18: of the four events only a transaction answers, a read never changes the core, and a write that changes
it is no bus error. -/
theorem busErrorChangesNoState : Obligations.BusErrorChangesNoState := by
  intro s t e k hstep hresp
  rw [step_scheduled] at hstep
  have answers : t.responses ≠ s.responses := hresp ▸ List.cons_ne_self _ _
  cases e with
  | busRead addr size =>
    cases hstep
    exact busRead_arch defaultConfig addr size s
  | busWrite addr v size =>
    cases hstep
    exact busWrite_arch_of_busError hresp
  | engine => exact absurd (engineTurn_responses hstep) answers
  | reset =>
    cases hstep
    exact absurd (resetCore_responses s) answers

end Sys2Proof.Machine
end

section
/-! Proofs of the family 30_encoding.md: the checks of decoding in their order (R105), and that encoding and decoding are
inverse on valid words (R116). -/

namespace Sys2Proof.Machine

/-! ## The fields of a word as numbers (R100 to R104) -/

theorem toNat_opField (w : Word) : (opField w).toNat = w.toNat / 2 ^ 28 := by
  rw [opField, BitVec.extractLsb'_toNat, Nat.shiftRight_eq_div_pow]
  omega

theorem toNat_rsvField (w : Word) : (rsvField w).toNat = w.toNat / 2 ^ 24 % 16 := by
  rw [rsvField, BitVec.extractLsb'_toNat, Nat.shiftRight_eq_div_pow]

theorem toNat_roundsField (w : Word) : (roundsField w).toNat = w.toNat / 2 ^ 16 % 256 := by
  rw [roundsField, BitVec.extractLsb'_toNat, Nat.shiftRight_eq_div_pow]

theorem toNat_dataField (w : Word) : (dataField w).toNat = w.toNat % 2 ^ 16 := by
  rw [dataField, BitVec.extractLsb'_toNat, Nat.shiftRight_zero]

/-- The four fields make up the word (R100). -/
theorem toNat_word_of_fields (w : Word) :
    w.toNat = (opField w).toNat * 2 ^ 28 + (rsvField w).toNat * 2 ^ 24 + (roundsField w).toNat * 2 ^ 16
      + (dataField w).toNat := by
  rw [toNat_opField, toNat_rsvField, toNat_roundsField, toNat_dataField]
  omega

theorem word_eq_of_fields {v w : Word} (hop : opField v = opField w) (hrsv : rsvField v = rsvField w)
    (hrnd : roundsField v = roundsField w) (hd : dataField v = dataField w) : v = w := by
  apply BitVec.eq_of_toNat_eq
  rw [toNat_word_of_fields v, hop, hrsv, hrnd, hd, ← toNat_word_of_fields w]

/-- The number of an encoded command (R116). -/
theorem toNat_encode (i : Instr) :
    (encode i).toNat = i.opcode.bits.toNat * 2 ^ 28 + i.rounds.toNat * 2 ^ 16 + i.data.toNat := by
  rw [toNat_word_of_fields, opField_encode, rsvField_encode, roundsField_encode, dataField_encode,
    show (0 : BitVec 4).toNat = 0 from rfl, Nat.zero_mul, Nat.add_zero]

/-! ## What the fields must be (R103 to R109) -/

/-- The illegal OP fields are 0x0 and 0xB to 0xF (R107). -/
theorem opcode_ofBits_eq_none_iff (b : BitVec 4) : Opcode.ofBits b = none ↔ b.toNat = 0 ∨ 0xA < b.toNat := by
  revert b
  decide

theorem takesNibble_iff (op : Opcode) : op.takesNibble = true ↔ op.bits.toNat ≤ 2 := by
  cases op <;> decide

theorem takesRounds_iff (op : Opcode) : op.takesRounds = true ↔ 7 ≤ op.bits.toNat := by
  cases op <;> decide

theorem extractLsb'_upper_eq_zero_iff (d : Block) : d.extractLsb' 4 12 = 0 ↔ d.toNat / 16 = 0 := by
  rw [← BitVec.toNat_inj, BitVec.extractLsb'_toNat, Nat.shiftRight_eq_div_pow, show (0 : BitVec 12).toNat = 0 from rfl]
  omega

/-- The three clauses of R108, with the operations as ranges of opcode numbers. -/
theorem reservedFieldSet_iff (op : Opcode) (w : Word) :
    reservedFieldSet op w = true ↔
      ((rsvField w).toNat ≠ 0 ∨ op.bits.toNat ≤ 2 ∧ (dataField w).toNat / 16 ≠ 0) ∨
        op.bits.toNat ≤ 6 ∧ (roundsField w).toNat ≠ 0 := by
  have hrounds : op.takesRounds = false ↔ op.bits.toNat ≤ 6 := by
    rw [← Bool.not_eq_true, takesRounds_iff]
    omega
  have hne {n : Nat} (x : BitVec n) : x ≠ 0 ↔ x.toNat ≠ 0 := BitVec.toNat_ne_iff_ne.symm
  simp only [reservedFieldSet, Bool.or_eq_true, Bool.and_eq_true, bne_iff_ne, Bool.not_eq_true', takesNibble_iff,
    hrounds, hne (rsvField w), hne (roundsField w), ne_eq, extractLsb'_upper_eq_zero_iff]

/-- Only a round count of 0 makes a command invalid (R109). -/
theorem wf_eq (i : Instr) : i.wf = !(i.opcode.takesRounds && i.rounds == 0) := by
  cases i <;> rfl

theorem wellFormed_iff (i : Instr) : i.WellFormed ↔ ¬ (7 ≤ i.opcode.bits.toNat ∧ i.rounds.toNat = 0) := by
  rw [Instr.WellFormed, wf_eq, Bool.not_eq_true', ← Bool.not_eq_true, Bool.and_eq_true, takesRounds_iff, beq_iff_eq,
    ← BitVec.toNat_inj]
  rfl

/-- A command keeps the ROUNDS field it is made with, where the operation takes one or the field is 0. -/
theorem instr_rounds {op : Opcode} {r : RoundCount} (h : op.bits.toNat ≤ 6 → r.toNat = 0) (d : Block) :
    (op.instr r d).rounds = r := by
  have hzero (hop : op.bits.toNat ≤ 6) : 0 = r := (BitVec.eq_of_toNat_eq (h hop)).symm
  cases op with
  | enc | dec | sac | bic => rfl
  | _ => exact hzero (by decide)

/-- A command keeps the DATA field it is made with, where its operand is a block or DATA[15:4] is 0. -/
theorem instr_data {op : Opcode} {d : Block} (h : op.bits.toNat ≤ 2 → d.toNat / 16 = 0) (r : RoundCount) :
    (op.instr r d).data = d := by
  have hnibble (hop : op.bits.toNat ≤ 2) : (d.extractLsb' 0 4).setWidth 16 = d := by
    apply BitVec.eq_of_toNat_eq
    rw [BitVec.toNat_setWidth, BitVec.extractLsb'_toNat, Nat.shiftRight_zero]
    have := h hop
    omega
  cases op with
  | sbox | sboxInv => exact hnibble (by decide)
  | _ => rfl

/-! ## Decoding, check by check (R105) -/

theorem decode_of_illegal {w : Word} (h : Opcode.ofBits (opField w) = none) : decode w = .error .illegal := by
  rw [decode, h]

theorem decode_of_reserved {w : Word} {op : Opcode} (hop : Opcode.ofBits (opField w) = some op)
    (h : reservedFieldSet op w = true) : decode w = .error .reserved := by
  rw [decode, hop]
  exact if_pos h

/-- A word with a legal OP and no reserved field set is the encoding of the command its fields make. -/
theorem encode_instr_of_fields {w : Word} {op : Opcode} (hop : Opcode.ofBits (opField w) = some op)
    (h : ¬ reservedFieldSet op w = true) : encode (op.instr (roundsField w) (dataField w)) = w := by
  rw [reservedFieldSet_iff] at h
  push Not at h
  obtain ⟨⟨hrsv, hdata⟩, hrounds⟩ := h
  apply word_eq_of_fields
  · rw [opField_encode, instr_opcode, opcode_bits_of_ofBits hop]
  · rw [rsvField_encode]
    exact (BitVec.eq_of_toNat_eq hrsv).symm
  · rw [roundsField_encode, instr_rounds hrounds]
  · rw [dataField_encode, instr_data hdata]

/-- An encoded command fails none of the first checks: it decodes to itself, unless its round count is 0. -/
theorem decode_encode (i : Instr) :
    decode (encode i) = if i.WellFormed then .ok i else .error .rounds := by
  simp only [decode_of_row (Laws.RowRoundTrip.of_fields i), Instr.WellFormed, wf_eq]
  cases i.opcode.takesRounds && i.rounds == 0 <;> rfl

/-- Every word takes the error of the first check that fails, or is the encoding of a command (R105). -/
theorem decode_cases (w : Word) :
    decode w = .error .illegal ∨ decode w = .error .reserved ∨ ∃ i, encode i = w := by
  cases hop : Opcode.ofBits (opField w) with
  | none => exact .inl (decode_of_illegal hop)
  | some op =>
    by_cases hres : reservedFieldSet op w = true
    · exact .inr (.inl (decode_of_reserved hop hres))
    · exact .inr (.inr ⟨_, encode_instr_of_fields hop hres⟩)

/-- The words that decode to a command are the encodings of the valid commands (R116). -/
theorem decode_eq_ok_iff (w : Word) (i : Instr) : decode w = .ok i ↔ i.WellFormed ∧ encode i = w := by
  constructor
  · intro h
    obtain e | e | ⟨j, rfl⟩ := decode_cases w
    · exact nomatch e.symm.trans h
    · exact nomatch e.symm.trans h
    · rw [decode_encode] at h
      split_ifs at h with hj
      cases h
      exact ⟨hj, rfl⟩
  · rintro ⟨hi, rfl⟩
    rw [decode_encode, if_pos hi]

/-- Settles O10: the words of valid commands are the ones that decode, and an encoded word's fields are its command's. -/
theorem decodeInvertsEncode : Obligations.DecodeInvertsEncode :=
  ⟨fun i hi => ⟨(decode_eq_ok_iff _ i).2 ⟨hi, rfl⟩, toNat_encode i⟩, fun w i => (decode_eq_ok_iff w i).1⟩

/-- Settles O11: each error clause is one check of `decode`, and a word with a legal OP and no reserved field set is
an encoded command, valid unless its round count is 0. -/
theorem decodeChecksInOrder : Obligations.DecodeChecksInOrder := by
  intro w
  simp only [← toNat_opField, ← toNat_rsvField, ← toNat_roundsField, ← toNat_dataField]
  cases hop : Opcode.ofBits (opField w) with
  | none =>
    rw [if_pos ((opcode_ofBits_eq_none_iff _).1 hop)]
    exact decode_of_illegal hop
  | some op =>
    have hlegal : ¬ ((opField w).toNat = 0 ∨ 0xA < (opField w).toNat) := by
      rw [← opcode_ofBits_eq_none_iff, hop]
      simp
    rw [if_neg hlegal, ← opcode_bits_of_ofBits hop, ← ite_or, ← ite_or]
    by_cases hres : reservedFieldSet op w = true
    · rw [if_pos ((reservedFieldSet_iff op w).1 hres)]
      exact decode_of_reserved hop hres
    · rw [if_neg (mt (reservedFieldSet_iff op w).2 hres)]
      obtain ⟨i, rfl⟩ : ∃ i, encode i = w := ⟨_, encode_instr_of_fields hop hres⟩
      rw [opcode_bits_of_ofBits hop, opField_encode, roundsField_encode, dataField_encode]
      by_cases hwf : i.WellFormed
      · rw [if_neg ((wellFormed_iff i).1 hwf)]
        exact ⟨i, (decode_eq_ok_iff _ i).2 ⟨hwf, rfl⟩, rfl, rfl, rfl⟩
      · rw [if_pos (not_not.1 (mt (wellFormed_iff i).2 hwf)), decode_encode, if_neg hwf]

end Sys2Proof.Machine
end

section
/-! Proofs of the family 40_substitution.md: the positional inverse (R137), and SUB and SUBINV as inverse commands
(R138). -/

namespace Sys2Proof.Machine

/-! ## The positional inverse (R10, R137) -/

/-- Nibbles are the positions of a table, so an injective table is an injective map of nibbles. -/
theorem tableAt_injective {t : Table} (ht : ∀ i j : Fin 16, t[i] = t[j] → i = j) :
    Function.Injective (tableAt t) :=
  fun v w h => congrArg BitVec.ofFin (ht v.toFin w.toFin h)

/-- Where the table has the entry `v`, the search of the positional inverse ends at a position of that entry. -/
theorem tableAt_inverseTable {t : Table} {v : Nibble} (h : ∃ w, tableAt t w = v) :
    tableAt t (tableAt (inverseTable t) v) = v := by
  obtain ⟨w, hw⟩ := h
  have hsearch : tableAt (inverseTable t) v =
      match positions.find? fun i => t[i] == v with
      | some i => BitVec.ofFin i
      | none => 0 :=
    Vector.getElem_ofFn v.isLt
  cases hfind : positions.find? fun i => t[i] == v with
  | none => exact absurd (beq_iff_eq.2 hw) (List.find?_eq_none.1 hfind w.toFin (mem_positions _))
  | some i =>
    have hi := List.find?_some hfind
    rw [hsearch, hfind]
    exact beq_iff_eq.1 hi

/-- An injective table has every nibble as an entry, so it undoes its positional inverse. -/
theorem tableAt_leftInverse {t : Table} (ht : ∀ i j : Fin 16, t[i] = t[j] → i = j) :
    Function.LeftInverse (tableAt t) (tableAt (inverseTable t)) :=
  fun v => tableAt_inverseTable (Finite.surjective_of_injective (tableAt_injective ht) v)

theorem tableAt_rightInverse {t : Table} (ht : ∀ i j : Fin 16, t[i] = t[j] → i = j) :
    Function.RightInverse (tableAt t) (tableAt (inverseTable t)) :=
  (tableAt_leftInverse ht).rightInverse_of_injective (tableAt_injective ht)

/-- Settles O26: the search finds a preimage of every nibble, and injectivity turns this right inverse into a left one;
the default inverses evaluate to the listed ones. -/
theorem inverseTableInvertsTheTable : Obligations.InverseTableInvertsTheTable :=
  ⟨fun _ ht v => ⟨tableAt_rightInverse ht v, tableAt_leftInverse ht v⟩, by decide, by decide⟩

/-! ## SUB and SUBINV (R138) -/

/-- Blocks with the same four nibbles are equal. -/
theorem block_eq_of_nibbles {x y : Block}
    (h : ∀ k : Fin 4, x.extractLsb' (4 * k.val) 4 = y.extractLsb' (4 * k.val) 4) : x = y := by
  ext j hj
  have hbit := congrArg (·.getLsbD (j % 4)) (h ⟨j / 4, by omega⟩)
  simpa only [BitVec.getLsbD_extractLsb', Nat.mod_lt j (Nat.zero_lt_succ 3), Nat.div_add_mod, decide_true,
    Bool.true_and, BitVec.getLsbD_eq_getElem hj] using hbit

/-- Each nibble of the result is the table's entry at that nibble of the operand (R131). -/
theorem extractLsb'_sub16 (x : Block) (t : Table) :
    ∀ k : Fin 4, (sub16 x t).extractLsb' (4 * k.val) 4 = tableAt t (x.extractLsb' (4 * k.val) 4)
  | 0 => BitVec.extractLsb'_append_eq_right
  | 1 => (BitVec.extractLsb'_append_eq_of_le (by decide)).trans BitVec.extractLsb'_append_eq_right
  | 2 => (BitVec.extractLsb'_append_eq_of_le (by decide)).trans
      ((BitVec.extractLsb'_append_eq_of_le (by decide)).trans BitVec.extractLsb'_append_eq_right)
  | 3 => (BitVec.extractLsb'_append_eq_of_le (by decide)).trans
      ((BitVec.extractLsb'_append_eq_of_le (by decide)).trans BitVec.extractLsb'_append_eq_left)

/-- Substitution works nibble by nibble, so a table that undoes another on nibbles undoes it on blocks. -/
theorem sub16_leftInverse {t u : Table} (h : Function.LeftInverse (tableAt u) (tableAt t)) :
    Function.LeftInverse (sub16 · u) (sub16 · t) := by
  intro x
  apply block_eq_of_nibbles
  intro k
  rw [extractLsb'_sub16, extractLsb'_sub16, h]

/-- Two commands that fill RESULT with functions of their block undo each other as the functions do. -/
theorem undoneBy_of_leftInverse {cfg : Config} {first second : Block → Instr} {f g : Block → Block}
    (hf : ∀ x s, execWith cfg (first x) s = .next (completeWith (writeResult (f x)) s))
    (hg : ∀ x s, execWith cfg (second x) s = .next (completeWith (writeResult (g x)) s))
    (h : Function.LeftInverse g f) : UndoneBy cfg first second :=
  fun x s => ⟨_, _, hf x s, hg _ _, h x⟩

/-- Settles O27: SUB and SUBINV fill RESULT with `sub16` by tables that undo each other on both sides. -/
theorem substitutionAndItsInverseUndoEachOther : Obligations.SubstitutionAndItsInverseUndoEachOther := by
  intro t ht
  obtain ⟨hsbox, -⟩ := (Tables.areValid_iff t).1 ht
  exact ⟨undoneBy_of_leftInverse (fun _ _ => rfl) (fun _ _ => rfl) (sub16_leftInverse (tableAt_rightInverse hsbox)),
    undoneBy_of_leftInverse (fun _ _ => rfl) (fun _ _ => rfl) (sub16_leftInverse (tableAt_leftInverse hsbox))⟩

end Sys2Proof.Machine
end

section
/-! Proofs of the family 41_permutation.md: PERM and PERMINV as inverse commands (R154), the default table as an
involution (R155), and the linearity of a bit permutation (R157). -/

namespace Sys2Proof.Machine

/-! ## The bits of a permuted block (R150) -/

/-- Bit positions are nibbles, so blocks that agree at every nibble are equal. -/
theorem block_eq_of_bits {x y : Block} (h : ∀ v : Nibble, x.getLsbD v.toNat = y.getLsbD v.toNat) : x = y :=
  BitVec.eq_of_getLsbD_eq fun i hi => h (BitVec.ofNatLT i hi)

/-- Bit v of the operand is at position `T[v]`, in the words of `tableAt`. -/
theorem perm16_getLsbD_tableAt {t : Table} (ht : Function.Injective (tableAt t)) (x : Block) (v : Nibble) :
    (perm16 x t).getLsbD (tableAt t v).toNat = x.getLsbD v.toNat :=
  perm16_bit t (fun i j h => congrArg BitVec.toFin (ht (a₁ := .ofFin i) (a₂ := .ofFin j) h)) x v.toFin

/-- An injective table reaches every position, so the bits at its entries determine the permuted block. -/
theorem perm16_eq_of_bits {t : Table} (ht : Function.Injective (tableAt t)) {x y : Block}
    (h : ∀ v : Nibble, x.getLsbD v.toNat = y.getLsbD (tableAt t v).toNat) : perm16 x t = y := by
  apply block_eq_of_bits
  intro p
  obtain ⟨v, rfl⟩ := Finite.surjective_of_injective ht p
  rw [perm16_getLsbD_tableAt ht, h]

/-! ## PERM and PERMINV (R154, R155) -/

/-- A table that undoes another on positions moves each bit back to where it came from. -/
theorem perm16_leftInverse {t u : Table} (h : Function.LeftInverse (tableAt u) (tableAt t)) :
    Function.LeftInverse (perm16 · u) (perm16 · t) := by
  have hu : Function.Injective (tableAt u) := Finite.injective_iff_surjective.2 h.surjective
  intro x
  apply perm16_eq_of_bits hu
  intro p
  obtain ⟨v, rfl⟩ := Finite.surjective_of_injective h.injective p
  rw [perm16_getLsbD_tableAt h.injective, h]

/-- Settles O28: PERM and PERMINV fill RESULT with `perm16` by tables that undo each other on both sides. -/
theorem permutationAndItsInverseUndoEachOther : Obligations.PermutationAndItsInverseUndoEachOther := by
  intro t ht
  obtain ⟨-, hperm⟩ := (Tables.areValid_iff t).1 ht
  exact ⟨undoneBy_of_leftInverse (fun _ _ => rfl) (fun _ _ => rfl) (perm16_leftInverse (tableAt_rightInverse hperm)),
    undoneBy_of_leftInverse (fun _ _ => rfl) (fun _ _ => rfl) (perm16_leftInverse (tableAt_leftInverse hperm))⟩

theorem tableAt_defaultPerm_involutive : Function.Involutive (tableAt defaultConfig.perm) := by
  unfold Function.Involutive
  decide

theorem defaultConfig_permInv : defaultConfig.permInv = defaultConfig.perm := by decide

theorem exec_permInv_eq_exec_perm (x : Block) (s : State) : exec (.permInv x) s = exec (.perm x) s :=
  congrArg (fun t => Host.Outcome.next (completeWith (writeResult (perm16 x t)) s)) defaultConfig_permInv

/-- Settles O29: the table's entries are evaluated one by one, and the commands follow from them. -/
theorem defaultPermutationIsAnInvolution : Obligations.DefaultPermutationIsAnInvolution :=
  ⟨by decide, tableAt_defaultPerm_involutive, defaultConfig_permInv,
    undoneBy_of_leftInverse (fun _ _ => rfl) (fun _ _ => rfl)
      (perm16_leftInverse tableAt_defaultPerm_involutive.leftInverse),
    exec_permInv_eq_exec_perm⟩

/-! ## Linearity (R157) -/

theorem perm16_xor {t : Table} (ht : Function.Injective (tableAt t)) (x y : Block) :
    perm16 (x ^^^ y) t = perm16 x t ^^^ perm16 y t := by
  apply perm16_eq_of_bits ht
  intro v
  rw [BitVec.getLsbD_xor, BitVec.getLsbD_xor, perm16_getLsbD_tableAt ht, perm16_getLsbD_tableAt ht]

/-- A permutation fixes a block whose bits are all alike. -/
theorem perm16_of_constant {t : Table} (ht : Function.Injective (tableAt t)) {x : Block} {b : Bool}
    (h : ∀ v : Nibble, x.getLsbD v.toNat = b) : perm16 x t = x :=
  perm16_eq_of_bits ht fun v => (h v).trans (h _).symm

/-- The entries of an injective table are the sixteen positions in another order. -/
theorem map_entries_perm_positions {t : Table} (ht : ∀ i j : Fin 16, t[i] = t[j] → i = j) :
    (positions.map fun i => (t[i]).toFin).Perm positions := by
  have hinj : Function.Injective fun i : Fin 16 => (t[i]).toFin := fun i j h => ht i j (congrArg BitVec.ofFin h)
  rw [List.perm_ext_iff_of_nodup (positions_nodup.map hinj) positions_nodup]
  intro p
  obtain ⟨i, hi⟩ := Finite.surjective_of_injective hinj p
  exact iff_of_true (List.mem_map.2 ⟨i, mem_positions i, hi⟩) (mem_positions p)

/-- Counting the permuted block's bits in the order of the table's entries counts the operand's bits. -/
theorem popcount_perm16 {t : Table} (ht : ∀ i j : Fin 16, t[i] = t[j] → i = j) (x : Block) :
    popcount (perm16 x t) = popcount x :=
  calc popcount (perm16 x t)
    _ = (positions.map fun i : Fin 16 => (t[i]).toFin).countP fun p => (perm16 x t).getLsbD p.val :=
      ((map_entries_perm_positions ht).countP_eq _).symm
    _ = positions.countP fun i => (perm16 x t).getLsbD (t[i]).toNat := List.countP_map
    _ = popcount x := List.countP_congr fun i _ => by rw [perm16_bit t ht x i]

/-- Settles O30: each output bit is one input bit, so the exclusive or, the number of 1 bits and the constant blocks
are kept. -/
theorem permutationIsLinear : Obligations.PermutationIsLinear := by
  intro t ht
  rw [isBijection_iff] at ht
  have hinj := tableAt_injective ht
  exact ⟨fun x y => ⟨perm16_xor hinj x y, popcount_perm16 ht x⟩,
    perm16_of_constant hinj (b := false) (by decide), perm16_of_constant hinj (b := true) (by decide)⟩

end Sys2Proof.Machine
end

section
/-! Proofs of the family 42_round_cipher.md: encryption and decryption as iterates of inverse rounds (R171, R172, R175),
and the sum of round counts (R176). -/

namespace Sys2Proof.Machine

/-! ## Rounds (R165 to R168) -/

/-- The repeat loop is the library's iterate. -/
theorem repeatTimes_eq_iterate (f : Block → Block) : ∀ n : Nat, repeatTimes f n = f^[n]
  | 0 => rfl
  | n + 1 => funext fun x => congrFun (repeatTimes_eq_iterate f n) (f x)

theorem repeatTimes_leftInverse {f g : Block → Block} (h : Function.LeftInverse g f) (n : Nat) :
    Function.LeftInverse (repeatTimes g n) (repeatTimes f n) := by
  rw [repeatTimes_eq_iterate, repeatTimes_eq_iterate]
  exact h.iterate n

theorem repeatTimes_add (f : Block → Block) (m n : Nat) (x : Block) :
    repeatTimes f (m + n) x = repeatTimes f n (repeatTimes f m x) := by
  rw [repeatTimes_eq_iterate, repeatTimes_eq_iterate, repeatTimes_eq_iterate, Nat.add_comm]
  exact Function.iterate_add_apply f n m x

/-! ## The two orders of the round trip (R171, R172, R175) -/

/-- The inverse round takes the two layers off in reverse order: the permutation first, then the substitution. -/
theorem inverseRound_leftInverse {t : Tables} (ht : Tables.areValid t = true) :
    Function.LeftInverse (inverseRound (configOf t)) (forwardRound (configOf t)) := by
  obtain ⟨hsbox, hperm⟩ := (Tables.areValid_iff t).1 ht
  exact (perm16_leftInverse (tableAt_rightInverse hperm)).comp (sub16_leftInverse (tableAt_rightInverse hsbox))

theorem forwardRound_leftInverse {t : Tables} (ht : Tables.areValid t = true) :
    Function.LeftInverse (forwardRound (configOf t)) (inverseRound (configOf t)) := by
  obtain ⟨hsbox, hperm⟩ := (Tables.areValid_iff t).1 ht
  exact (sub16_leftInverse (tableAt_leftInverse hsbox)).comp (perm16_leftInverse (tableAt_leftInverse hperm))

theorem decrypt_leftInverse {t : Tables} (ht : Tables.areValid t = true) (r : Nat) :
    Function.LeftInverse (decrypt (configOf t) · r) (encrypt (configOf t) · r) :=
  repeatTimes_leftInverse (inverseRound_leftInverse ht) r

theorem encrypt_leftInverse {t : Tables} (ht : Tables.areValid t = true) (r : Nat) :
    Function.LeftInverse (encrypt (configOf t) · r) (decrypt (configOf t) · r) :=
  repeatTimes_leftInverse (forwardRound_leftInverse ht) r

/-- Settles O33: each function has the other as its inverse on both sides. -/
theorem encryptionIsABijection : Obligations.EncryptionIsABijection := by
  intro t r ht _
  have hdec := decrypt_leftInverse ht r
  have henc := encrypt_leftInverse ht r
  exact ⟨⟨hdec.injective, henc.surjective⟩, ⟨henc.injective, hdec.surjective⟩, hdec, henc⟩

theorem execWith_enc {r : RoundCount} (hr : r ≠ 0) (cfg : Config) (x : Block) (s : State) :
    execWith cfg (.enc r x) s = .next (completeWith (writeResult (encrypt cfg x r.toNat)) s) :=
  congrArg Host.Outcome.next (completeRounds_of_ne_zero hr _ s)

theorem execWith_dec {r : RoundCount} (hr : r ≠ 0) (cfg : Config) (x : Block) (s : State) :
    execWith cfg (.dec r x) s = .next (completeWith (writeResult (decrypt cfg x r.toNat)) s) :=
  congrArg Host.Outcome.next (completeRounds_of_ne_zero hr _ s)

/-- Settles O32: ENC and DEC fill RESULT with functions that undo each other on both sides. -/
theorem decryptionUndoesEncryption : Obligations.DecryptionUndoesEncryption := by
  intro t r ht hr
  have henc := execWith_enc hr (configOf t)
  have hdec := execWith_dec hr (configOf t)
  exact ⟨undoneBy_of_leftInverse henc hdec (decrypt_leftInverse ht _),
    undoneBy_of_leftInverse hdec henc (encrypt_leftInverse ht _)⟩

/-! ## The sum of round counts (R176) -/

/-- A second completion that fills RESULT leaves no trace of the first. -/
theorem completeWith_writeResult_twice (v w : Block) (s : State) :
    completeWith (writeResult w) (completeWith (writeResult v) s) = completeWith (writeResult w) s := rfl

/-- A sum that one command can carry is a round count other than 0, and does not wrap. -/
theorem roundCount_add {a b : RoundCount} (ha : a ≠ 0) (hab : a.toNat + b.toNat ≤ 255) :
    a + b ≠ 0 ∧ (a + b).toNat = a.toNat + b.toNat := by
  constructor <;> bv_omega

/-- Two commands that fill RESULT with `a` and then `b` repetitions of one function leave the state of one command with
`a + b` repetitions. -/
theorem rounds_add {cfg : Config} {command : RoundCount → Block → Instr} {f : Block → Block}
    (hexec : ∀ {r : RoundCount}, r ≠ 0 → ∀ x s,
      execWith cfg (command r x) s = .next (completeWith (writeResult (repeatTimes f r.toNat x)) s))
    {a b : RoundCount} (ha : a ≠ 0) (hb : b ≠ 0) (hab : a.toNat + b.toNat ≤ 255) (x : Block) (s : State) :
    ∃ t u, execWith cfg (command a x) s = .next t ∧ execWith cfg (command b t.arch.result) t = .next u ∧
      execWith cfg (command (a + b) x) s = .next u := by
  obtain ⟨hne, hsum⟩ := roundCount_add ha hab
  refine ⟨_, _, hexec ha x s, hexec hb _ _, ?_⟩
  rw [hexec hne, hsum, repeatTimes_add, completeWith_writeResult_twice]
  rfl

/-- Settles O34: ENC and DEC repeat one round, and only the last RESULT remains. -/
theorem roundCountsAdd : Obligations.RoundCountsAdd :=
  fun cfg _ _ x s ha hb hab =>
    ⟨rounds_add (fun hr => execWith_enc hr cfg) ha hb hab x s, rounds_add (fun hr => execWith_dec hr cfg) ha hb hab x s⟩

end Sys2Proof.Machine
end

section
/-! Proofs of the family 43_sac.md: the bounds of SAC_SUM (R186), the identity configuration (R187), and the sample that
SAC and BIC share (R188). -/

namespace Sys2Proof.Machine

/-! ## Hamming distances and their sum (R181, R182) -/

theorem popcount_le (v : Block) : popcount v ≤ 16 := List.countP_le_length

/-- Only the block 0 has no 1 bit. -/
theorem popcount_pos {v : Block} (h : v ≠ 0) : 1 ≤ popcount v := by
  refine Nat.one_le_iff_ne_zero.2 fun hzero => h ?_
  have hbits := List.countP_eq_zero.1 hzero
  exact BitVec.eq_of_getLsbD_eq fun i hi =>
    (Bool.eq_false_of_not_eq_true (hbits ⟨i, hi⟩ (mem_positions _))).trans BitVec.getLsbD_zero.symm

theorem hammingDistance_pos {o : Block} {t : Vector Block 16} {i : Fin 16} (h : o ≠ t[i]) :
    1 ≤ hammingDistance o t i :=
  popcount_pos (mt BitVec.xor_eq_zero_iff.1 h)

theorem sacSumOf_eq_sum (o : Block) (t : Vector Block 16) : sacSumOf o t = ∑ i : Fin 16, hammingDistance o t i :=
  (Fin.sum_univ_def _).symm

/-- Sixteen distances of at most 16 each (R182). -/
theorem sacSumOf_le (o : Block) (t : Vector Block 16) : sacSumOf o t ≤ 256 := by
  rw [sacSumOf_eq_sum]
  exact Finset.sum_le_card_nsmul _ _ 16 fun i _ => popcount_le (o ^^^ t[i])

theorem sixteen_le_sacSumOf {o : Block} {t : Vector Block 16} (h : ∀ i, 1 ≤ hammingDistance o t i) :
    16 ≤ sacSumOf o t := by
  rw [sacSumOf_eq_sum]
  exact Finset.card_nsmul_le_sum Finset.univ _ 1 fun i _ => h i

theorem sacSumOf_of_distances_one {o : Block} {t : Vector Block 16} (h : ∀ i, hammingDistance o t i = 1) :
    sacSumOf o t = 16 := by
  rw [sacSumOf_eq_sum]
  exact Finset.sum_eq_card_nsmul fun i _ => h i

/-! ## The registers after SAC (R180, R183, R184) -/

/-- Trial i encrypts the base block with bit i flipped (R180, R185). -/
theorem sampleTrials_getElem (cfg : Config) (b : Block) (r : Nat) (i : Fin 16) :
    (sampleTrials cfg b r)[i] = encrypt cfg (b ^^^ bitMask i) r :=
  Vector.getElem_ofFn i.isLt

/-- A completed SAC leaves the sample, and the sum of its distances without loss in the 9 bits of SAC_SUM. -/
theorem execWith_sac_registers {r : RoundCount} (hr : r ≠ 0) (cfg : Config) (b : Block) (s : State) :
    ∃ u, execWith cfg (.sac r b) s = .next u ∧ u.arch.orig = sampleOrig cfg b r.toNat ∧
      u.arch.trial = sampleTrials cfg b r.toNat ∧ u.arch.sacSum.toNat = sacSumOf u.arch.orig u.arch.trial :=
  ⟨completeWith (commandWrites cfg (.sac r b)) s, congrArg Host.Outcome.next (completeRounds_of_ne_zero hr _ s),
    rfl, rfl, Nat.mod_eq_of_lt ((sacSumOf_le _ _).trans_lt (by decide))⟩

/-- The percentage of SAC_PCT is the same function of SAC_SUM under every configuration (R183). -/
theorem percentOfWord_sacPct (cfg : Config) {a : Arch} (h : a.sacSum.toNat ≤ 256) :
    percentOfWord (regWord cfg a .sacPct) = (a.sacSum.toNat : ℚ) * 100 / 256 := by
  obtain ⟨-, -, hexact, -, -⟩ := sacPercentIsTheExactPercentage a h
  exact hexact

/-! ## The tighter bound of a valid configuration (R186) -/

/-- The base block and its flip differ by the flipped bit alone. -/
theorem xor_flip (b : Block) (i : Fin 16) : b ^^^ (b ^^^ bitMask i) = bitMask i := by
  rw [← BitVec.xor_assoc, BitVec.xor_self, BitVec.zero_xor]

theorem ne_flip (b : Block) (i : Fin 16) : b ≠ b ^^^ bitMask i := by
  have hmask : bitMask i ≠ 0 := by
    revert i
    decide
  rwa [ne_eq, ← BitVec.xor_eq_zero_iff, xor_flip]

/-- Encryption is injective, so the ciphertext of a flip differs from that of the base block. -/
theorem hammingDistance_sample_pos {t : Tables} (ht : Tables.areValid t = true) (b : Block) (r : Nat) (i : Fin 16) :
    1 ≤ hammingDistance (sampleOrig (configOf t) b r) (sampleTrials (configOf t) b r) i := by
  apply hammingDistance_pos
  rw [sampleTrials_getElem]
  exact (decrypt_leftInverse ht r).injective.ne (ne_flip b i)

/-- Settles O35: distinct plaintexts have distinct ciphertexts, so each of the sixteen distances is 1 to 16. -/
theorem sacSumIsAtLeastSixteen : Obligations.SacSumIsAtLeastSixteen := by
  intro t r b s ht hr
  obtain ⟨u, hexec, horig, htrial, hsum⟩ := execWith_sac_registers hr (configOf t) b s
  have hdist : ∀ i, 1 ≤ hammingDistance u.arch.orig u.arch.trial i := by
    rw [horig, htrial]
    exact hammingDistance_sample_pos ht b r.toNat
  have hlow : 16 ≤ u.arch.sacSum.toNat := hsum ▸ sixteen_le_sacSumOf hdist
  have hhigh : u.arch.sacSum.toNat ≤ 256 := hsum ▸ sacSumOf_le _ _
  have hlow' : (16 : ℚ) ≤ u.arch.sacSum.toNat := by exact_mod_cast hlow
  have hhigh' : (u.arch.sacSum.toNat : ℚ) ≤ 256 := by exact_mod_cast hhigh
  refine ⟨u, hexec, hdist, hlow, hhigh, ?_⟩
  rw [percentOfWord_sacPct _ hhigh]
  constructor <;> linarith

/-! ## The identity configuration (R187) -/

theorem sub16_of_identity {t : Table} (h : ∀ v, tableAt t v = v) (x : Block) : sub16 x t = x := by
  apply block_eq_of_nibbles
  intro k
  rw [extractLsb'_sub16, h]

theorem perm16_of_identity {t : Table} (h : ∀ v, tableAt t v = v) (x : Block) : perm16 x t = x := by
  have hinj : Function.Injective (tableAt t) := fun v w hvw => by rwa [h, h] at hvw
  apply perm16_eq_of_bits hinj
  intro v
  rw [h]

theorem forwardRound_identityConfig (x : Block) : forwardRound identityConfig x = x := by
  have hsbox : ∀ v, tableAt identityConfig.sbox v = v := by decide
  have hperm : ∀ v, tableAt identityConfig.perm v = v := by decide
  rw [forwardRound, sub16_of_identity hsbox, perm16_of_identity hperm]

theorem encrypt_identityConfig (b : Block) (r : Nat) : encrypt identityConfig b r = b := by
  rw [encrypt, repeatTimes_eq_iterate]
  exact Function.iterate_fixed (forwardRound_identityConfig b) r

theorem popcount_bitMask : ∀ i : Fin 16, popcount (bitMask i) = 1 := by decide

/-- Each trial is the base block with its own bit flipped, and nothing else. -/
theorem hammingDistance_identityConfig (b : Block) (r : Nat) (i : Fin 16) :
    hammingDistance (sampleOrig identityConfig b r) (sampleTrials identityConfig b r) i = 1 := by
  rw [hammingDistance, sampleTrials_getElem, sampleOrig, encrypt_identityConfig, encrypt_identityConfig, xor_flip,
    popcount_bitMask]

/-- Settles O36: the identity tables pass the check of R11, the all-zero S-box does not, and every round is the
identity, so a trial differs from ORIG in its flipped bit. -/
theorem identityConfigurationGivesSumSixteen : Obligations.IdentityConfigurationGivesSumSixteen := by
  refine ⟨elaborate_of_areValid (by decide), elaborate_of_not_areValid (by decide), ?_⟩
  intro r b s hr
  obtain ⟨u, hexec, horig, htrial, hsum⟩ := execWith_sac_registers hr identityConfig b s
  have hdist : ∀ i, hammingDistance u.arch.orig u.arch.trial i = 1 := by
    rw [horig, htrial]
    exact hammingDistance_identityConfig b r.toNat
  have hsixteen : u.arch.sacSum.toNat = 16 := hsum.trans (sacSumOf_of_distances_one hdist)
  refine ⟨encrypt_identityConfig b r.toNat, u, hexec, hdist, BitVec.eq_of_toNat_eq hsixteen, ?_⟩
  rw [percentOfWord_sacPct _ (by omega), hsixteen]
  norm_num

/-! ## The sample that SAC and BIC share (R188) -/

/-- Settles O37: the completions of both commands write ORIG and TRIAL from the one sample of the base block and the
round count. -/
theorem sacAndBicWriteTheSameSample : Obligations.SacAndBicWriteTheSameSample := by
  intro r b s s' hr
  have hwf : (r != 0) = true := (roundCount_wf r).2 hr
  exact ⟨_, _, exec_of_wellFormed (i := .sac r b) hwf s, exec_of_wellFormed (i := .bic r b) hwf s', rfl, rfl⟩

end Sys2Proof.Machine
end

section
/-! Proofs of the family 44_bic.md: the Gram matrix (R197), the correlation as Pearson's (R201), the exact score and the
integer that stands for it (R202, R203), change-bit invariance (R205), the bounds (R206), and the identity configuration
(R208). -/

namespace Sys2Proof.Machine

/-! ## The Gram matrix (R195 to R197) -/

/-- Counting a property over the sixteen positions is summing its bits. -/
theorem countP_positions_eq_sum (p : Fin 16 → Bool) : positions.countP p = ∑ i : Fin 16, (p i).toNat := by
  have hlist : ∀ l : List (Fin 16), l.countP p = (l.map fun i => (p i).toNat).sum := by
    intro l
    induction l with
    | nil => rfl
    | cons i l ih =>
      rw [List.countP_cons, ih, List.map_cons, List.sum_cons, Nat.add_comm]
      cases p i <;> rfl
  rw [hlist, Fin.sum_univ_def]
  rfl

theorem boolToNat_and (a b : Bool) : (a && b).toNat = a.toNat * b.toNat := by
  cases a <;> cases b <;> rfl

theorem gramAt_gramOf_eq_sum (t : Vector Block 16) (j k : Fin 16) :
    gramAt (gramOf t) j k = ∑ i : Fin 16, ((t[i]).getLsbD j.val).toNat * ((t[i]).getLsbD k.val).toNat := by
  rw [gramAt_gramOf, gramCount, countP_positions_eq_sum]
  exact Finset.sum_congr rfl fun i _ => boolToNat_and ((t[i]).getLsbD j.val) _

theorem gramAt_gramOf_comm (t : Vector Block 16) (j k : Fin 16) :
    gramAt (gramOf t) j k = gramAt (gramOf t) k j := by
  simp only [gramAt_gramOf_eq_sum, Nat.mul_comm]

theorem columnCount_gramOf_eq_sum (t : Vector Block 16) (j : Fin 16) :
    columnCount (gramOf t) j = ∑ i : Fin 16, ((t[i]).getLsbD j.val).toNat := by
  rw [columnCount, gramAt_gramOf, gramCount, countP_positions_eq_sum]
  simp only [Bool.and_self]

/-- A trial with both bits set has the first one set. -/
theorem gramAt_le_columnCount (t : Vector Block 16) (j k : Fin 16) :
    gramAt (gramOf t) j k ≤ columnCount (gramOf t) j := by
  rw [columnCount, gramAt_gramOf, gramAt_gramOf]
  refine List.countP_mono_left fun i _ hboth => ?_
  rw [Bool.and_self]
  exact (Bool.and_eq_true_iff.1 hboth).1

/-- Settles O38: an entry counts the trials with both bits set, and both orders of the columns count the same trials. -/
theorem gramMatrixIsSymmetricAndBounded : Obligations.GramMatrixIsSymmetricAndBounded := by
  intro t j k
  refine ⟨gramAt_gramOf_eq_sum t j k, ?_, gramAt_gramOf_comm t j k, columnCount_gramOf_eq_sum t j,
    le_min (gramAt_le_columnCount t j k) ?_⟩
  · exact (gramAt_le_columnCount t j k).trans (columnCount_le t j)
  · rw [gramAt_gramOf_comm]
    exact gramAt_le_columnCount t k j

/-! ## The centred columns (R201) -/

/-- The entry `M[i][j]` of the bit matrix, as a real (R195). -/
def bitEntry (t : Vector Block 16) (i j : Fin 16) : ℝ := (((t[i]).getLsbD j.val).toNat : ℝ)

/-- The mean of column j over the sixteen trials. -/
noncomputable def columnMean (t : Vector Block 16) (j : Fin 16) : ℝ := (∑ i : Fin 16, bitEntry t i j) / 16

/-- The entry of the bit matrix less the mean of its column. -/
noncomputable def centredEntry (t : Vector Block 16) (i j : Fin 16) : ℝ := bitEntry t i j - columnMean t j

/-- The mean-centred dot product of columns j and k. -/
noncomputable def centredProduct (t : Vector Block 16) (j k : Fin 16) : ℝ :=
  ∑ i : Fin 16, centredEntry t i j * centredEntry t i k

theorem columnMean_eq (t : Vector Block 16) (j : Fin 16) : columnMean t j = columnCount (gramOf t) j / 16 := by
  rw [columnCount_gramOf_eq_sum]
  push_cast
  rfl

theorem gramAt_eq_sum_bitEntry (t : Vector Block 16) (j k : Fin 16) :
    (gramAt (gramOf t) j k : ℝ) = ∑ i : Fin 16, bitEntry t i j * bitEntry t i k := by
  rw [gramAt_gramOf_eq_sum]
  push_cast
  rfl

/-- The derivation of R201: the numerator of the correlation is 16 times the centred dot product. -/
theorem sixteen_mul_centredProduct (t : Vector Block 16) (j k : Fin 16) :
    16 * centredProduct t j k =
      16 * (gramAt (gramOf t) j k : ℝ) - columnCount (gramOf t) j * columnCount (gramOf t) k := by
  have hsum (c : Fin 16) : ∑ i : Fin 16, bitEntry t i c = 16 * columnMean t c := by
    rw [columnMean]
    ring
  have hcentred : centredProduct t j k = (gramAt (gramOf t) j k : ℝ) - 16 * columnMean t j * columnMean t k := by
    simp only [centredProduct, centredEntry, sub_mul, mul_sub, Finset.sum_sub_distrib, ← Finset.mul_sum,
      ← Finset.sum_mul, hsum, ← gramAt_eq_sum_bitEntry, Finset.sum_const, Finset.card_univ, Fintype.card_fin]
    ring
  rw [hcentred, columnMean_eq, columnMean_eq]
  ring

theorem columnVariance_eq_centredProduct (t : Vector Block 16) (j : Fin 16) :
    (columnVariance (gramOf t) j : ℝ) = 16 * centredProduct t j j := by
  rw [sixteen_mul_centredProduct, ← columnCount, columnVariance, Nat.cast_mul, Nat.cast_sub (columnCount_le t j)]
  push_cast
  ring

theorem covariance_eq_centredProduct (t : Vector Block 16) (j k : Fin 16) :
    (covariance (gramOf t) j k : ℝ) = |16 * centredProduct t j k| := by
  rw [sixteen_mul_centredProduct, covariance, Nat.cast_natAbs]
  push_cast
  rfl

theorem centredProduct_comm (t : Vector Block 16) (j k : Fin 16) : centredProduct t j k = centredProduct t k j := by
  simp only [centredProduct, mul_comm]

theorem centredProduct_self (t : Vector Block 16) (j : Fin 16) :
    centredProduct t j j = ∑ i : Fin 16, centredEntry t i j ^ 2 := by
  simp only [centredProduct, sq]

theorem centredProduct_self_nonneg (t : Vector Block 16) (j : Fin 16) : 0 ≤ centredProduct t j j := by
  rw [centredProduct_self]
  positivity

/-- Cauchy-Schwarz for the centred columns. -/
theorem centredProduct_sq_le (t : Vector Block 16) (j k : Fin 16) :
    centredProduct t j k ^ 2 ≤ centredProduct t j j * centredProduct t k k := by
  rw [centredProduct_self, centredProduct_self]
  exact Finset.sum_mul_sq_le_sq_mul_sq _ _ _

/-! ## The correlation (R200, R201) -/

theorem correlation_self (g : BicMatrix) (j : Fin 16) : correlation g j j = 1 := if_pos rfl

theorem correlation_gramOf_comm (t : Vector Block 16) (j k : Fin 16) :
    correlation (gramOf t) j k = correlation (gramOf t) k j := by
  rw [correlation, correlation, gramAt_gramOf_comm, mul_comm (columnCount (gramOf t) j : ℝ),
    mul_comm (columnVariance (gramOf t) j : ℝ)]
  simp only [eq_comm (a := j), or_comm]

/-- The third case of R200, with the common factor 16 cancelled. -/
theorem correlation_eq_pearson (t : Vector Block 16) {j k : Fin 16} (h : j ≠ k)
    (hj : columnVariance (gramOf t) j ≠ 0) (hk : columnVariance (gramOf t) k ≠ 0) :
    correlation (gramOf t) j k =
      centredProduct t j k / (√(centredProduct t j j) * √(centredProduct t k k)) := by
  have hroot : √(16 * centredProduct t j j * (16 * centredProduct t k k)) =
      16 * (√(centredProduct t j j) * √(centredProduct t k k)) := by
    rw [← Real.sqrt_mul (centredProduct_self_nonneg t j), show 16 * centredProduct t j j * (16 * centredProduct t k k)
      = 16 ^ 2 * (centredProduct t j j * centredProduct t k k) by ring, Real.sqrt_mul (by norm_num),
      Real.sqrt_sq (by norm_num)]
  rw [correlation, if_neg h, if_neg (not_or.2 ⟨hj, hk⟩), ← sixteen_mul_centredProduct,
    columnVariance_eq_centredProduct, columnVariance_eq_centredProduct, hroot]
  exact mul_div_mul_left _ _ (by norm_num)

/-- Off the diagonal |r[j][k]| in the terms of R201; a zero-variance column has the zero norm. -/
theorem abs_correlation_gramOf (t : Vector Block 16) {j k : Fin 16} (h : j ≠ k) :
    |correlation (gramOf t) j k| =
      |16 * centredProduct t j k| / √(16 * centredProduct t j j * (16 * centredProduct t k k)) := by
  rw [abs_correlation _ j k h, covariance_eq_centredProduct, columnVariance_eq_centredProduct,
    columnVariance_eq_centredProduct]

/-- The correlation lies in [-1, 1] by Cauchy-Schwarz (R201). -/
theorem abs_correlation_le_one (t : Vector Block 16) (j k : Fin 16) : |correlation (gramOf t) j k| ≤ 1 := by
  by_cases h : j = k
  · rw [h, correlation_self, abs_one]
  · rw [abs_correlation_gramOf t h]
    refine div_le_one_of_le₀ (Real.abs_le_sqrt ?_) (Real.sqrt_nonneg _)
    linarith [centredProduct_sq_le t j k]

/-- Settles O39: the numerator and the two variances of R200 are 16 times the centred dot products of R201. -/
theorem correlationIsPearsons : Obligations.CorrelationIsPearsons := by
  intro t j k h hj hk m mean r
  obtain ⟨hlow, hhigh⟩ := abs_le.1 (abs_correlation_le_one t j k)
  refine ⟨?_, hlow, hhigh, correlation_gramOf_comm t j k⟩
  have hpearson := correlation_eq_pearson t h hj hk
  rwa [centredProduct_self t j, centredProduct_self t k] at hpearson

/-! ## The exact score (R202) -/

/-- There are 240 entries off the diagonal. -/
theorem sum_offDiagonal_const (c : ℝ) : (∑ j : Fin 16, ∑ k : Fin 16, if j = k then 0 else c) = 240 * c := by
  have hrow (j : Fin 16) : (∑ k : Fin 16, if j = k then 0 else c) = 15 * c := by
    simp [Finset.sum_ite, Finset.filter_ne]
  simp only [hrow, Finset.sum_const, Finset.card_univ, Fintype.card_fin]
  ring

theorem bicExact_nonneg (g : BicMatrix) : 0 ≤ bicExact g :=
  mul_nonneg (by norm_num) (Finset.sum_nonneg fun _ _ => Finset.sum_nonneg fun _ _ =>
    ite_nonneg le_rfl (abs_nonneg _))

/-- A score is at most a bound of the absolute correlations, being their mean. -/
theorem bicExact_le_one (t : Vector Block 16) : bicExact (gramOf t) ≤ 1 := by
  have hsum : (∑ j : Fin 16, ∑ k : Fin 16, if j = k then 0 else |correlation (gramOf t) j k|) ≤ 240 * 1 := by
    rw [← sum_offDiagonal_const]
    refine Finset.sum_le_sum fun j _ => Finset.sum_le_sum fun k _ => ?_
    split_ifs
    · exact le_rfl
    · exact abs_correlation_le_one t j k
  rw [bicExact]
  linarith

/-- The mean of equal absolute correlations. -/
theorem bicExact_of_abs_correlation {g : BicMatrix} {c : ℝ} (h : ∀ j k, j ≠ k → |correlation g j k| = c) :
    bicExact g = c := by
  have hsum : (∑ j : Fin 16, ∑ k : Fin 16, if j = k then 0 else |correlation g j k|) = 240 * c := by
    rw [← sum_offDiagonal_const]
    exact Finset.sum_congr rfl fun j _ => Finset.sum_congr rfl fun k _ => ite_congr rfl (fun _ => rfl) (h j k)
  rw [bicExact, hsum]
  ring

/-! ## The sum over pairs of columns (R202) -/

theorem columnPairs_nodup : columnPairs.Nodup := by decide

theorem mem_columnPairs (p : Fin 16 × Fin 16) : p ∈ columnPairs ↔ p.1 < p.2 := by
  obtain ⟨j, k⟩ := p
  simp [columnPairs, mem_positions]

theorem sum_columnPairs (f : Fin 16 → Fin 16 → ℝ) :
    (columnPairs.map fun p => f p.1 p.2).sum = ∑ j : Fin 16, ∑ k : Fin 16, if j < k then f j k else 0 := by
  have hpairs : columnPairs.toFinset = Finset.univ.filter fun p : Fin 16 × Fin 16 => p.1 < p.2 := by
    ext p
    simp [mem_columnPairs]
  rw [← List.sum_toFinset _ columnPairs_nodup, hpairs, Finset.sum_filter, Fintype.sum_prod_type]

/-- Each unordered pair counts twice off the diagonal of a symmetric matrix. -/
theorem sum_offDiagonal_eq (f : Fin 16 → Fin 16 → ℝ) (hf : ∀ j k, f j k = f k j) :
    (∑ j : Fin 16, ∑ k : Fin 16, if j = k then 0 else f j k) = 2 * (columnPairs.map fun p => f p.1 p.2).sum := by
  have hswap : (∑ j : Fin 16, ∑ k : Fin 16, if k < j then f j k else 0) =
      ∑ j : Fin 16, ∑ k : Fin 16, if j < k then f j k else 0 := by
    rw [Finset.sum_comm]
    simp only [hf]
  have hsplit (j k : Fin 16) :
      (if j = k then 0 else f j k) = (if j < k then f j k else 0) + if k < j then f j k else 0 := by
    rcases lt_trichotomy j k with h | h | h
    · simp [h, h.ne, h.not_gt]
    · simp [h]
    · simp [h, h.ne', h.not_gt]
  simp only [hsplit, Finset.sum_add_distrib]
  rw [hswap, sum_columnPairs]
  ring

/-- The sum of the absolute correlations over the 120 pairs j < k. -/
noncomputable def pairSum (g : BicMatrix) : ℝ := (columnPairs.map fun p => |correlation g p.1 p.2|).sum

theorem bicExact_eq_pairSum (t : Vector Block 16) : bicExact (gramOf t) = pairSum (gramOf t) / 120 := by
  rw [bicExact, pairSum, sum_offDiagonal_eq (fun j k => |correlation (gramOf t) j k|) fun j k =>
    congrArg abs (correlation_gramOf_comm t j k)]
  ring

/-! ## The integer score is the floor of the exact score (R203) -/

/-- Each of the 120 scaled correlations is less than 1 short of its real. -/
theorem sum_scaledCorrelation_bounds (g : BicMatrix) :
    ((columnPairs.map fun p => scaledCorrelation g p.1 p.2).sum : ℝ) ≤ 2 ^ 40 * pairSum g ∧
      2 ^ 40 * pairSum g ≤ (columnPairs.map fun p => scaledCorrelation g p.1 p.2).sum + 120 := by
  have hspec (p) (hp : p ∈ columnPairs) := scaledCorrelation_spec g p.1 p.2 ((mem_columnPairs p).1 hp).ne
  rw [pairSum, ← List.sum_map_mul_left, Nat.cast_list_sum, List.map_map]
  constructor
  · exact List.sum_le_sum fun p hp => (hspec p hp).1
  · calc (columnPairs.map fun p => 2 ^ 40 * |correlation g p.1 p.2|).sum
      _ ≤ (columnPairs.map fun p => (scaledCorrelation g p.1 p.2 : ℝ) + 1).sum :=
        List.sum_le_sum fun p hp => (hspec p hp).2.le
      _ = _ := by
        rw [List.sum_map_add, List.map_const', List.sum_replicate, show columnPairs.length = 120 from rfl]
        norm_num
        rfl

/-- The estimate is the floor of the score or one less. -/
theorem scoreEstimate_bounds (t : Vector Block 16) :
    (scoreEstimate (gramOf t) : ℝ) ≤ bicExact (gramOf t) * 2 ^ 30 ∧
      bicExact (gramOf t) * 2 ^ 30 < scoreEstimate (gramOf t) + 2 := by
  obtain ⟨hlow, hhigh⟩ := sum_scaledCorrelation_bounds (gramOf t)
  rw [bicExact_eq_pairSum, scoreEstimate]
  generalize (columnPairs.map fun p => scaledCorrelation (gramOf t) p.1 p.2).sum = n at *
  have hfloor : n / (120 * 2 ^ 10) * 122880 ≤ n := by omega
  have hceil : n < (n / (120 * 2 ^ 10) + 1) * 122880 := by omega
  generalize n / (120 * 2 ^ 10) = e at *
  have hfloor' : (e : ℝ) * 122880 ≤ n := by exact_mod_cast hfloor
  have hceil' : (n : ℝ) < (e + 1) * 122880 := by exact_mod_cast hceil
  constructor <;> linarith

theorem surdValue_foldl_add (ps : List Nat) {α : Type} (f : α → Surd ps) (l : List α) (x : Surd ps) :
    surdValue ps (l.foldl (fun x a => surdAdd ps x (f a)) x) =
      surdValue ps x + (l.map fun a => surdValue ps (f a)).sum := by
  induction l generalizing x with
  | nil => simp
  | cons a l ih => rw [List.foldl_cons, ih, surdValue_add, List.map_cons, List.sum_cons, add_assoc]

theorem surdValue_exactCorrelationSum (t : Vector Block 16) :
    surdValue scoreRadicands (exactCorrelationSum (gramOf t)) = (varianceMultiple : ℝ) ^ 2 * pairSum (gramOf t) := by
  rw [exactCorrelationSum, surdValue_foldl_add, surdValue_ofInt, Int.cast_zero, zero_add, pairSum,
    ← List.sum_map_mul_left]
  exact congrArg List.sum (List.map_congr_left fun p hp =>
    exactCorrelation_spec t p.1 p.2 ((mem_columnPairs p).1 hp).ne)

theorem IsSignOf.nonneg_iff {n : Int} {v : ℝ} (h : IsSignOf n v) : 0 ≤ n ↔ 0 ≤ v := by
  obtain ⟨rfl, hv⟩ | ⟨rfl, hv⟩ | ⟨rfl, hv⟩ := h
  · exact iff_of_true (by decide) hv.le
  · exact iff_of_true (by decide) hv.ge
  · exact iff_of_false (by decide) hv.not_ge

/-- The exact comparison decides what it is named after. -/
theorem scoreIsAtLeast_iff (t : Vector Block 16) (k : Nat) :
    scoreIsAtLeast (gramOf t) k = true ↔ (k : ℝ) ≤ bicExact (gramOf t) * 2 ^ 30 := by
  have hM : (0 : ℝ) < (varianceMultiple : ℝ) ^ 2 := by norm_num [varianceMultiple]
  rw [scoreIsAtLeast, decide_eq_true_iff, (surdSign_isSignOf scoreRadicands (by decide) _).nonneg_iff, surdValue_add,
    surdValue_scale, surdValue_ofInt, surdValue_exactCorrelationSum, bicExact_eq_pairSum]
  push_cast
  generalize (varianceMultiple : ℝ) ^ 2 = m at *
  generalize pairSum (gramOf t) = x
  rw [show 1073741824 * (m * x) + -(120 * k * m) = 120 * m * (x / 120 * 2 ^ 30 - k) by ring,
    mul_nonneg_iff_of_pos_left (by positivity), sub_nonneg]

/-- BIC_SCORE is the floor of the exact score with 30 fraction bits (R203). -/
theorem bicScoreOf_eq_floor (t : Vector Block 16) :
    (bicScoreOf (gramOf t) : ℤ) = ⌊bicExact (gramOf t) * 2 ^ 30⌋ := by
  obtain ⟨hlow, hhigh⟩ := scoreEstimate_bounds t
  have hnext := scoreIsAtLeast_iff t (scoreEstimate (gramOf t) + 1)
  push_cast at hnext
  symm
  rw [Int.floor_eq_iff, bicScoreOf]
  split_ifs with h <;> push_cast
  · exact ⟨hnext.1 h, by linarith⟩
  · exact ⟨hlow, not_le.1 (mt hnext.2 h)⟩

/-! ## Change-bit invariance (R205) -/

/-- The sign by which a column changes when each of its bits is exclusive-ored with that bit of the block. -/
def flipSign (o : Block) (j : Fin 16) : ℝ := if o.getLsbD j.val then -1 else 1

theorem flipSign_mul_self (o : Block) (j : Fin 16) : flipSign o j * flipSign o j = 1 := by
  unfold flipSign
  split_ifs <;> norm_num

theorem abs_flipSign (o : Block) (j : Fin 16) : |flipSign o j| = 1 := by
  unfold flipSign
  split_ifs <;> norm_num

/-- A bit flipped is 1 minus the bit. -/
theorem bitEntry_map_xor (t : Vector Block 16) (o : Block) (i j : Fin 16) :
    bitEntry (t.map (· ^^^ o)) i j = (o.getLsbD j.val).toNat + flipSign o j * bitEntry t i j := by
  simp only [bitEntry, Fin.getElem_fin, Vector.getElem_map, BitVec.getLsbD_xor, flipSign]
  cases o.getLsbD j.val <;> cases (t[i.val]).getLsbD j.val <;> norm_num

theorem columnMean_map_xor (t : Vector Block 16) (o : Block) (j : Fin 16) :
    columnMean (t.map (· ^^^ o)) j = (o.getLsbD j.val).toNat + flipSign o j * columnMean t j := by
  simp only [columnMean, bitEntry_map_xor, Finset.sum_add_distrib, ← Finset.mul_sum, Finset.sum_const,
    Finset.card_univ, Fintype.card_fin]
  ring

/-- Centring removes the constant, and only the sign of the column remains. -/
theorem centredEntry_map_xor (t : Vector Block 16) (o : Block) (i j : Fin 16) :
    centredEntry (t.map (· ^^^ o)) i j = flipSign o j * centredEntry t i j := by
  rw [centredEntry, bitEntry_map_xor, columnMean_map_xor, centredEntry]
  ring

theorem centredProduct_map_xor (t : Vector Block 16) (o : Block) (j k : Fin 16) :
    centredProduct (t.map (· ^^^ o)) j k = flipSign o j * flipSign o k * centredProduct t j k := by
  rw [centredProduct, centredProduct, Finset.mul_sum]
  refine Finset.sum_congr rfl fun i _ => ?_
  rw [centredEntry_map_xor, centredEntry_map_xor]
  ring

theorem centredProduct_self_map_xor (t : Vector Block 16) (o : Block) (j : Fin 16) :
    centredProduct (t.map (· ^^^ o)) j j = centredProduct t j j := by
  rw [centredProduct_map_xor, flipSign_mul_self, one_mul]

theorem columnVariance_map_xor (t : Vector Block 16) (o : Block) (j : Fin 16) :
    columnVariance (gramOf (t.map (· ^^^ o))) j = columnVariance (gramOf t) j := by
  have hreal : (columnVariance (gramOf (t.map (· ^^^ o))) j : ℝ) = columnVariance (gramOf t) j := by
    rw [columnVariance_eq_centredProduct, columnVariance_eq_centredProduct, centredProduct_self_map_xor]
  exact_mod_cast hreal

theorem abs_correlation_map_xor (t : Vector Block 16) (o : Block) (j k : Fin 16) :
    |correlation (gramOf (t.map (· ^^^ o))) j k| = |correlation (gramOf t) j k| := by
  by_cases h : j = k
  · rw [h, correlation_self, correlation_self]
  · rw [abs_correlation_gramOf _ h, abs_correlation_gramOf t h, centredProduct_self_map_xor,
      centredProduct_self_map_xor, centredProduct_map_xor]
    simp only [abs_mul, abs_flipSign, one_mul]

theorem bicExact_map_xor (t : Vector Block 16) (o : Block) :
    bicExact (gramOf (t.map (· ^^^ o))) = bicExact (gramOf t) := by
  simp only [bicExact, abs_correlation_map_xor]

/-- Settles O40: the exclusive or changes centred columns by their signs alone, and the score is the floor of a real that
the signs do not reach. -/
theorem scoreIgnoresChangedBits : Obligations.ScoreIgnoresChangedBits := by
  intro t o g g'
  refine ⟨columnVariance_map_xor t o, abs_correlation_map_xor t o, ?mask, bicExact_map_xor t o, ?score⟩
  case mask => simp only [zeroVarianceMask, g, g', columnVariance_map_xor]
  case score =>
    have hfloor : (bicScoreOf g' : ℤ) = bicScoreOf g := by
      rw [bicScoreOf_eq_floor, bicScoreOf_eq_floor, bicExact_map_xor]
    exact_mod_cast hfloor

/-! ## The registers after BIC (R204) and their bounds (R206) -/

theorem bicScoreOf_le (t : Vector Block 16) : bicScoreOf (gramOf t) ≤ 2 ^ 30 := by
  obtain ⟨hfloor, -⟩ := Int.floor_eq_iff.1 (bicScoreOf_eq_floor t).symm
  rw [Int.cast_natCast] at hfloor
  have hreal : (bicScoreOf (gramOf t) : ℝ) ≤ 2 ^ 30 := by linarith [bicExact_le_one t]
  exact_mod_cast hreal

/-- A completed BIC leaves the sample, its Gram matrix, and the score without loss in the 31 bits of BIC_SCORE. -/
theorem execWith_bic_registers {r : RoundCount} (hr : r ≠ 0) (cfg : Config) (b : Block) (s : State) :
    ∃ u, execWith cfg (.bic r b) s = .next u ∧ u.arch.trial = sampleTrials cfg b r.toNat ∧
      u.arch.gram = gramOf (sampleTrials cfg b r.toNat) ∧
      u.arch.bicScore.toNat = bicScoreOf (gramOf (sampleTrials cfg b r.toNat)) :=
  ⟨completeWith (commandWrites cfg (.bic r b)) s, congrArg Host.Outcome.next (completeRounds_of_ne_zero hr _ s),
    rfl, rfl, Nat.mod_eq_of_lt ((bicScoreOf_le _).trans_lt (by norm_num))⟩

/-- Settles O41: the score is a mean of absolute values of at most 1, and BIC_SCORE its floor with 30 fraction bits. -/
theorem bicScoreIsAtMostOne : Obligations.BicScoreIsAtMostOne := by
  refine ⟨fun t => ⟨bicExact_nonneg _, bicExact_le_one t⟩, fun cfg r b s hr => ?_⟩
  obtain ⟨u, hexec, -, -, hscore⟩ := execWith_bic_registers hr cfg b s
  exact ⟨u, hexec, hscore ▸ bicScoreOf_le _⟩

/-! ## The identity configuration (R208) -/

/-- The trials of the identity configuration for the block 0: trial i has bit i alone. -/
def unitTrials : Vector Block 16 := Vector.ofFn bitMask

theorem bitMask_getLsbD : ∀ i j : Fin 16, (bitMask i).getLsbD j.val = decide (i = j) := by decide

/-- Under the identity configuration the trials are the unit trials with the base block's bits changed. -/
theorem sampleTrials_identityConfig (b : Block) (r : Nat) :
    sampleTrials identityConfig b r = unitTrials.map (· ^^^ b) := by
  ext i hi
  simp [sampleTrials, unitTrials, encrypt_identityConfig, BitVec.xor_comm]

/-- Columns j and k of the unit trials are both 1 in trial j = k or in none. -/
theorem gramAt_unitTrials (j k : Fin 16) : gramAt (gramOf unitTrials) j k = if j = k then 1 else 0 := by
  have hbit (i c : Fin 16) : ((unitTrials[i]).getLsbD c.val).toNat = if i = c then 1 else 0 := by
    rw [show unitTrials[i] = bitMask i from Vector.getElem_ofFn i.isLt, bitMask_getLsbD]
    split_ifs with h <;> simp [h]
  simp only [gramAt_gramOf_eq_sum, hbit]
  simp [eq_comm]

theorem columnCount_unitTrials (j : Fin 16) : columnCount (gramOf unitTrials) j = 1 := by
  rw [columnCount, gramAt_unitTrials, if_pos rfl]

theorem columnVariance_unitTrials (j : Fin 16) : columnVariance (gramOf unitTrials) j = 15 := by
  rw [columnVariance, columnCount_unitTrials]

theorem abs_correlation_unitTrials {j k : Fin 16} (h : j ≠ k) : |correlation (gramOf unitTrials) j k| = 1 / 15 := by
  rw [abs_correlation _ j k h, columnVariance_unitTrials, columnVariance_unitTrials, covariance, gramAt_unitTrials,
    if_neg h, columnCount_unitTrials, columnCount_unitTrials, Real.sqrt_mul_self (by norm_num)]
  norm_num

/-- The two counts that give the variance of the unit trials. -/
theorem columnCount_of_columnVariance {t : Vector Block 16} {j : Fin 16} (h : columnVariance (gramOf t) j = 15) :
    columnCount (gramOf t) j = 1 ∨ columnCount (gramOf t) j = 15 := by
  have hle := columnCount_le t j
  rw [columnVariance] at h
  generalize columnCount (gramOf t) j = n at *
  interval_cases n <;> simp_all

/-- The floor of 2^30 / 15. -/
theorem bicScoreOf_of_bicExact {t : Vector Block 16} (h : bicExact (gramOf t) = 1 / 15) :
    bicScoreOf (gramOf t) = 71582788 := by
  have hfloor : (bicScoreOf (gramOf t) : ℤ) = 71582788 := by
    rw [bicScoreOf_eq_floor, h, Int.floor_eq_iff]
    norm_num
  exact_mod_cast hfloor

/-- Settles O42: the trials are the unit trials with the base block's bits changed, which changes no variance, no absolute
correlation and no score. -/
theorem identityConfigurationGivesOneFifteenth : Obligations.IdentityConfigurationGivesOneFifteenth := by
  intro r b s hr
  obtain ⟨u, hexec, htrial, hgram, hscore⟩ := execWith_bic_registers hr identityConfig b s
  rw [sampleTrials_identityConfig] at hgram hscore
  have hvariance (j : Fin 16) : columnVariance (gramOf (unitTrials.map (· ^^^ b))) j = 15 :=
    (columnVariance_map_xor unitTrials b j).trans (columnVariance_unitTrials j)
  have hcorrelation (j k : Fin 16) (h : j ≠ k) :
      |correlation (gramOf (unitTrials.map (· ^^^ b))) j k| = 1 / 15 :=
    (abs_correlation_map_xor unitTrials b j k).trans (abs_correlation_unitTrials h)
  have hexact := bicExact_of_abs_correlation hcorrelation
  refine ⟨u, hexec, ?_⟩
  rw [hgram]
  refine ⟨fun i => ?trial, fun j => ⟨columnCount_of_columnVariance (hvariance j), hvariance j⟩, hcorrelation,
    hexact, BitVec.eq_of_toNat_eq (hscore.trans (bicScoreOf_of_bicExact hexact))⟩
  case trial => rw [htrial, sampleTrials_getElem, encrypt_identityConfig, bitMask]

end Sys2Proof.Machine
end

section
/-! Proofs of the family 60_exceptions.md: the precision of a command error (R225). -/

namespace Sys2Proof.Machine

/-- Acceptance of a word that decodes to an error: CMD has the word and the command has ended in that error. -/
theorem acceptWord_of_error {v : Word} {e : CmdError} (hd : decode v = .error e) (s : State) :
    acceptWord v s = withArch (commandError e (latchCmd v s.arch)) s := by
  rw [acceptWord, hd]
  rfl

/-- With nothing pending the engine has no step of its own, and its turn changes nothing (R84). -/
theorem step_scheduled_engine_of_idle {s : State} (h : s.arch.pending = none) :
    step (scheduled .engine s) = .next s := by
  rw [step_scheduled, takeEvent, engineTurn, h]

/-- Settles O19: the idle core accepts the word, its command error is the whole change of the core, and the core it
leaves is idle, so that the engine's turn finds nothing to do. -/
theorem commandErrorIsPrecise : Obligations.CommandErrorIsPrecise := by
  intro s v e hidle hd
  have haccept : step (scheduled (.busWrite 0x000 v (.single 32)) s) =
      .next (respond .written (withArch (commandError e (latchCmd v s.arch)) s)) := by
    rw [step_scheduled, takeEvent, busWrite_cmd_of_idle hidle, acceptWord_of_error hd]
  refine ⟨_, haccept, rfl, step_scheduled_engine_of_idle ?idle⟩
  case idle => rw [respond_arch, withArch_arch, commandError_pending]

end Sys2Proof.Machine
end

section
/-! Proofs of the family 70_reset_and_hazards.md: the core is idle after reset (R251). -/

namespace Sys2Proof.Machine

/-! ## A read of an idle core (R75) -/

/-- With nothing pending there is no write set, and the port reads each register as its word, drawing no free word. -/
theorem readReg_of_idle {s : State} (h : s.arch.pending = none) (cfg : Config) (r : Reg) :
    readReg cfg r s = respond (.data (regWord cfg s.arch r)) s := by
  rw [readReg, h]
  rfl

/-- A 32-bit read at a register's own offset reads that register. -/
theorem busRead_offset (cfg : Config) (r : Reg) (s : State) :
    busRead cfg r.offset (.single 32) s = readReg cfg r s := by
  rw [busRead, if_neg (not_not.2 rfl), regAt_offset]

theorem statusWord_reset : statusWord Arch.reset = 0 := by decide

/-! ## Acceptance of a word (R77) -/

/-- CMD holds the accepted word, whether it decodes or ends in a command error. -/
theorem acceptWord_arch_cmd (v : Word) (s : State) : (acceptWord v s).arch.cmd = v := by
  obtain ⟨i, _, h⟩ | ⟨e, _, h⟩ := acceptWord_cases v s
  · rw [h, withArch_arch, beginCommand_cmd, latchCmd_cmd]
  · rw [h, withArch_arch, commandError_cmd, latchCmd_cmd]

/-- Acceptance itself answers nothing: the port answers the write. -/
theorem acceptWord_responses (v : Word) (s : State) : (acceptWord v s).responses = s.responses := by
  obtain ⟨i, _, h⟩ | ⟨e, _, h⟩ := acceptWord_cases v s
  · rw [h, withArch_responses]
  · rw [h, withArch_responses]

/-- Settles O47: reset leaves nothing pending, so the read finds the STATUS word, which is 0, and the write is
accepted. -/
theorem coreIsIdleAfterReset : Obligations.CoreIsIdleAfterReset := by
  intro s hreset
  have hidle : s.arch.pending = none := congrArg Arch.pending hreset
  have hstatus : regWord defaultConfig s.arch .status = 0 := (congrArg statusWord hreset).trans statusWord_reset
  refine ⟨?read, fun v => ⟨respond .written (acceptWord v s), ?write, ?answer, ?cmd⟩⟩
  case read =>
    rw [step_scheduled, takeEvent, show (0x004 : Addr) = Reg.status.offset from rfl, busRead_offset,
      readReg_of_idle hidle, hstatus]
    rfl
  case write => rw [step_scheduled, takeEvent, busWrite_cmd_of_idle hidle]
  case answer => rw [respond_responses, acceptWord_responses]
  case cmd => rw [respond_arch, acceptWord_arch_cmd]

end Sys2Proof.Machine
end

section
/-! Proofs of the family other: what every step keeps (10_state.md R30, R34, R46, R50; 20_memory.md R77; 60_exceptions.md
R221, R227; 70_reset_and_hazards.md R259). -/

namespace Sys2Proof.Machine

/-! ## The data registers under the operations on STATUS, PENDING and CMD (R30) -/

/-- The cores hold the same values in the data registers of R30: they differ in CMD, PENDING and STATUS at most. -/
structure SameData (a b : Arch) : Prop where
  result : b.result = a.result
  orig : b.orig = a.orig
  trial : b.trial = a.trial
  sacSum : b.sacSum = a.sacSum
  bicScore : b.bicScore = a.bicScore
  bicZv : b.bicZv = a.bicZv
  gram : b.gram = a.gram

theorem sameData_refl (a : Arch) : SameData a a := ⟨rfl, rfl, rfl, rfl, rfl, rfl, rfl⟩

theorem sameData_completeCommand (a : Arch) : SameData a (completeCommand a) := ⟨rfl, rfl, rfl, rfl, rfl, rfl, rfl⟩

theorem sameData_commandError (e : CmdError) (a : Arch) : SameData a (commandError e a) :=
  ⟨rfl, rfl, rfl, rfl, rfl, rfl, rfl⟩

theorem sameData_acceptValid (i : Instr) (v : Word) (a : Arch) : SameData a (beginCommand i (latchCmd v a)) :=
  ⟨rfl, rfl, rfl, rfl, rfl, rfl, rfl⟩

theorem sameData_acceptError (e : CmdError) (v : Word) (a : Arch) : SameData a (commandError e (latchCmd v a)) :=
  ⟨rfl, rfl, rfl, rfl, rfl, rfl, rfl⟩

/-- What a step does to the data registers: nothing, the writes of a valid pending command, or reset. -/
theorem CoreChange.data_cases {s : State} {b : Arch} (hc : CoreChange s b) :
    SameData s.arch b ∨
      (∃ i, s.arch.pending = some i ∧ i.WellFormed ∧ engineIsNext s = true ∧
        SameData (commandWrites defaultConfig i s.arch) b) ∨
      resetIsNext s = true ∧ b = Arch.reset := by
  cases hc with
  | unchanged h => exact .inl (h ▸ sameData_refl _)
  | completed i hp hw he h => exact .inr (.inl ⟨i, hp, hw, he, h ▸ sameData_completeCommand _⟩)
  | failed _ _ _ _ h => exact .inl (h ▸ sameData_commandError _ _)
  | accepted _ _ _ _ _ h => exact .inl (h ▸ sameData_acceptValid _ _ _)
  | rejected _ _ _ _ _ h => exact .inl (h ▸ sameData_acceptError _ _ _)
  | reset hr h => exact .inr (.inr ⟨hr, h⟩)

/-- Settles O55: the steps that are left neither write a data register nor reset it. -/
theorem dataRegistersChangeOnlyAtCompletionAndReset :
    Obligations.DataRegistersChangeOnlyAtCompletionAndReset := by
  intro s t h hengine hreset
  obtain hsame | ⟨i, hp, -, he, -⟩ | ⟨hr, -⟩ := (step_change h).1.data_cases
  · exact ⟨hsame.result, hsame.orig, hsame.trial, hsame.sacSum, hsame.bicScore, hsame.bicZv, hsame.gram⟩
  · exact absurd ⟨he, by simp [hp]⟩ hengine
  · exact nomatch hreset.symm.trans hr

/-! ## Ranges of the registers (R50) -/

theorem RegistersInRange.of_sameData {a b : Arch} (hs : RegistersInRange a) (h : SameData a b) :
    RegistersInRange b := by
  obtain ⟨hsum, hscore, hgram, hsymmetric, hdiagonal⟩ := hs
  constructor
  · rwa [h.sacSum]
  · rwa [h.bicScore]
  all_goals rwa [h.gram]

theorem toNat_sacSum_ofNat (o : Block) (t : Vector Block 16) : (BitVec.ofNat 9 (sacSumOf o t)).toNat = sacSumOf o t :=
  Nat.mod_eq_of_lt ((sacSumOf_le o t).trans_lt (by norm_num))

theorem toNat_bicScore_ofNat (t : Vector Block 16) :
    (BitVec.ofNat 31 (bicScoreOf (gramOf t))).toNat = bicScoreOf (gramOf t) :=
  Nat.mod_eq_of_lt ((bicScoreOf_le t).trans_lt (by norm_num))

@[simp] theorem commandWrites_bic_gram (cfg : Config) (r : RoundCount) (b : Block) (a : Arch) :
    (commandWrites cfg (.bic r b) a).gram = gramOf (sampleTrials cfg b r.toNat) :=
  writeBic_gram ..

@[simp] theorem commandWrites_bic_bicZv (cfg : Config) (r : RoundCount) (b : Block) (a : Arch) :
    (commandWrites cfg (.bic r b) a).bicZv = zeroVarianceMask (gramOf (sampleTrials cfg b r.toNat)) :=
  writeBic_bicZv ..

@[simp] theorem commandWrites_bic_bicScore (cfg : Config) (r : RoundCount) (b : Block) (a : Arch) :
    (commandWrites cfg (.bic r b) a).bicScore = BitVec.ofNat 31 (bicScoreOf (gramOf (sampleTrials cfg b r.toNat))) :=
  writeBic_bicScore ..

/-- SAC writes a sum of at most 256, BIC a bounded score and the matrix of a sample, and no other command touches these
registers. -/
theorem registersInRange_commandWrites {a : Arch} (hs : RegistersInRange a) (cfg : Config) (i : Instr) :
    RegistersInRange (commandWrites cfg i a) := by
  obtain ⟨hsum, hscore, hgram, hsymmetric, hdiagonal⟩ := hs
  cases i with
  | sac r b => exact ⟨toNat_sacSum_ofNat _ _ ▸ sacSumOf_le _ _, hscore, hgram, hsymmetric, hdiagonal⟩
  | bic r b =>
    exact ⟨hsum, toNat_bicScore_ofNat _ ▸ bicScoreOf_le _,
      fun j k => (gramAt_le_columnCount _ j k).trans (columnCount_le _ j), gramAt_gramOf_comm _,
      gramAt_le_columnCount _⟩
  | _ => exact ⟨hsum, hscore, hgram, hsymmetric, hdiagonal⟩

theorem gramAt_reset (j k : Fin 16) : gramAt Arch.reset.gram j k = 0 := by
  simp [gramAt, Arch.reset]

theorem registersInRange_reset : RegistersInRange Arch.reset where
  sacSum := by decide
  bicScore := by decide
  gram j k := by simp [gramAt_reset]
  gramSymmetric j k := by simp [gramAt_reset]
  gramDiagonal j k := by simp [gramAt_reset]

/-- Settles O51: a step leaves the data registers alone, writes those of a command, within their ranges, or resets
them. -/
theorem stepKeepsRegistersInRange : Obligations.StepKeepsRegistersInRange := by
  intro s t hs h
  obtain hsame | ⟨i, -, -, -, hsame⟩ | ⟨-, hreset⟩ := (step_change h).1.data_cases
  · exact hs.of_sameData hsame
  · exact (registersInRange_commandWrites hs defaultConfig i).of_sameData hsame
  · exact hreset ▸ registersInRange_reset

/-! ## The evaluator registers (R259) -/

theorem EvaluatorCoherent.of_sameData {a b : Arch} (hs : EvaluatorCoherent a) (h : SameData a b) :
    EvaluatorCoherent b := by
  obtain ⟨hsample, hsac, hbic⟩ := hs
  constructor
  · rwa [h.orig, h.trial]
  · rwa [h.sacSum]
  · rwa [h.gram, h.bicZv, h.bicScore]

/-- A valid SAC or BIC writes results of its own sample and leaves those of the other; no other command touches them. -/
theorem evaluatorCoherent_commandWrites {a : Arch} (hs : EvaluatorCoherent a) {i : Instr} (hw : i.WellFormed) :
    EvaluatorCoherent (commandWrites defaultConfig i a) := by
  obtain ⟨hsample, hsac, hbic⟩ := hs
  cases i with
  | sac r b =>
    have hr := (roundCount_wf r).1 hw
    exact ⟨.inr ⟨b, r, hr, rfl, rfl⟩, .inr ⟨b, r, hr, toNat_sacSum_ofNat _ _⟩, hbic⟩
  | bic r b =>
    have hr := (roundCount_wf r).1 hw
    refine ⟨.inr ⟨b, r, hr, rfl, rfl⟩, hsac, .inr ⟨b, r, hr, commandWrites_bic_gram .., ?mask, ?score⟩⟩
    case mask => rw [commandWrites_bic_bicZv, commandWrites_bic_gram]
    case score => rw [commandWrites_bic_bicScore, commandWrites_bic_gram, toNat_bicScore_ofNat]
  | _ => exact ⟨hsample, hsac, hbic⟩

theorem evaluatorCoherent_reset : EvaluatorCoherent Arch.reset :=
  ⟨.inl ⟨rfl, rfl⟩, .inl rfl, .inl ⟨rfl, rfl, rfl⟩⟩

/-- Settles O52: a step leaves the evaluator registers alone, writes those of one command from one sample, or resets
them. -/
theorem stepKeepsEvaluatorCoherent : Obligations.StepKeepsEvaluatorCoherent := by
  intro s t hs h
  obtain hsame | ⟨i, -, hw, -, hsame⟩ | ⟨-, hreset⟩ := (step_change h).1.data_cases
  · exact hs.of_sameData hsame
  · exact (evaluatorCoherent_commandWrites hs hw).of_sameData hsame
  · exact hreset ▸ evaluatorCoherent_reset

/-! ## The word in CMD (R46, R221) -/

theorem commandRecorded_reset : CommandRecorded Arch.reset where
  pendingDecoded _ h := nomatch h
  errorDecoded h := nomatch h
  doneDecoded h := nomatch h

theorem commandRecorded_beginCommand {i : Instr} {a : Arch} (hd : decode a.cmd = .ok i) :
    CommandRecorded (beginCommand i a) where
  pendingDecoded j h := by
    cases h
    exact hd
  errorDecoded h := nomatch h
  doneDecoded h := nomatch h

theorem commandRecorded_commandError {e : CmdError} {a : Arch} (hd : decode a.cmd = .error e) :
    CommandRecorded (commandError e a) where
  pendingDecoded _ h := nomatch h
  errorDecoded _ := ⟨e, hd, rfl⟩
  doneDecoded _ h := nomatch h

theorem commandRecorded_completeCommand {i : Instr} {a : Arch} (hd : decode a.cmd = .ok i) :
    CommandRecorded (completeCommand a) where
  pendingDecoded _ h := nomatch h
  errorDecoded h := nomatch h
  doneDecoded _ _ := ⟨i, hd⟩

/-- The engine completes what the word in CMD decodes to, so it finds only valid commands; acceptance decodes the word
it latches. -/
theorem CoreChange.commandRecorded {s : State} {b : Arch} (hs : CommandRecorded s.arch)
    (hc : CoreChange s b) : CommandRecorded b := by
  cases hc with
  | unchanged h => exact h ▸ hs
  | completed i hp _ _ h =>
    subst h
    exact commandRecorded_completeCommand (((commandWrites_dataOnly _ i).cmd _).symm ▸ hs.pendingDecoded i hp)
  | failed i hp hw =>
    obtain ⟨hvalid, -⟩ := (decode_eq_ok_iff _ i).1 (hs.pendingDecoded i hp)
    exact absurd hvalid hw
  | accepted _ _ _ hd _ h => exact h ▸ commandRecorded_beginCommand hd
  | rejected _ _ _ hd _ h => exact h ▸ commandRecorded_commandError hd
  | reset _ h => exact h ▸ commandRecorded_reset

/-- Settles O50: each kind of change leaves PENDING and STATUS as the word in CMD decodes. -/
theorem stepKeepsCommandRecorded : Obligations.StepKeepsCommandRecorded :=
  fun _ _ hs h => (step_change h).1.commandRecorded hs

/-- Settles O53: the reset core meets each of the four invariants. -/
theorem resetMeetsTheInvariants : Obligations.ResetMeetsTheInvariants :=
  ⟨statusConsistent_reset, commandRecorded_reset, registersInRange_reset, evaluatorCoherent_reset⟩

/-! ## STATUS and the pending command (R34, R77, R227) -/

/-- Settles O54: every change of the core but those three leaves it as it was, STATUS included. -/
theorem statusChangesOnlyAtAcceptanceCompletionAndReset :
    Obligations.StatusChangesOnlyAtAcceptanceCompletionAndReset := by
  intro s t h hstatus
  have completion {i} (hp : s.arch.pending = some i) (he : engineIsNext s = true) :
      engineIsNext s = true ∧ s.arch.pending ≠ none := ⟨he, by simp [hp]⟩
  cases (step_change h).1 with
  | unchanged h => exact absurd (by rw [h]) hstatus
  | completed i hp _ he => exact .inr (.inl (completion hp he))
  | failed i hp _ he => exact .inr (.inl (completion hp he))
  | accepted _ _ _ _ ha => exact .inl ha
  | rejected _ _ _ _ ha => exact .inl ha
  | reset hr => exact .inr (.inr hr)

/-- Settles O56: an acceptance finds an idle core, and the other changes are the engine's and reset's. -/
theorem hostCannotDisturbAPendingCommand : Obligations.HostCannotDisturbAPendingCommand := by
  intro s t hbusy hengine hreset h
  cases (step_change h).1 with
  | unchanged h => exact h
  | completed _ _ _ he => exact nomatch hengine.symm.trans he
  | failed _ _ _ he => exact nomatch hengine.symm.trans he
  | accepted _ _ hp => exact absurd hp hbusy
  | rejected _ _ hp => exact absurd hp hbusy
  | reset hr => exact nomatch hreset.symm.trans hr

/-- Settles O20: with an error recorded nothing is pending, so the engine has nothing to complete. -/
theorem errorStatusStaysUntilAcceptanceOrReset : Obligations.ErrorStatusStaysUntilAcceptanceOrReset := by
  intro s t hs herr h haccept hreset
  obtain ⟨hdone, hidle⟩ := hs.errorDone herr
  cases (step_change h).1 with
  | unchanged h => exact ⟨h ▸ herr, h ▸ hdone, by rw [h], by rw [h]⟩
  | completed _ hp => exact nomatch hidle.symm.trans hp
  | failed _ hp => exact nomatch hidle.symm.trans hp
  | accepted _ _ _ _ ha => exact nomatch haccept.symm.trans ha
  | rejected _ _ _ _ ha => exact nomatch haccept.symm.trans ha
  | reset hr => exact nomatch hreset.symm.trans hr

end Sys2Proof.Machine
end

section
/-! Proofs of the family other: what each command's completion writes and what it leaves (20_memory.md R84, R91;
30_encoding.md R109; 40_substitution.md to 44_bic.md; 41_permutation.md R158). -/

namespace Sys2Proof.Machine

/-- A valid command leaves its writes and the STATUS of a completion, in every state (R84). -/
theorem exec_completes {i : Instr} (h : i.WellFormed) (s : State) :
    exec i s = .next (completedAs (commandWrites defaultConfig i s.arch) s) :=
  exec_of_wellFormed h s

/-! ## Substitution (R131 to R136) -/

/-- The list holds the entries of the table, in order. -/
def ListsTable (l : List Nat) (t : Table) : Prop := ∀ v : Nibble, (tableAt t v).toNat = l.getD v.toNat 0

theorem listsTable_sbox : ListsTable listedSbox defaultConfig.sbox := by
  unfold ListsTable
  decide

theorem listsTable_perm : ListsTable listedPerm defaultConfig.perm := by
  unfold ListsTable
  decide

theorem listsTable_sboxInv : ListsTable listedSboxInv defaultConfig.sboxInv := by
  obtain ⟨-, hinverse, -⟩ := inverseTableInvertsTheTable
  exact hinverse

theorem ListsTable.getD_eq {l : List Nat} {t : Table} (h : ListsTable l t) (i : Fin 16) :
    l.getD i.val 0 = (tableAt t (.ofFin i)).toNat := (h (.ofFin i)).symm

/-- The listed entry as a word of at least 4 bits is the table's entry, zero-extended. -/
theorem ListsTable.ofNat_eq_setWidth {l : List Nat} {t : Table} (h : ListsTable l t) (n : Nat) (v : Nibble) :
    BitVec.ofNat n (l.getD v.toNat 0) = (tableAt t v).setWidth n := by
  rw [← h v, BitVec.ofNat_toNat]

theorem ListsTable.listedNibble_eq {l : List Nat} {t : Table} (h : ListsTable l t) (x : Block) (lo : Nat) :
    listedNibble l x lo = tableAt t (x.extractLsb' lo 4) := by
  have hentry := h.ofNat_eq_setWidth 4 (x.extractLsb' lo 4)
  rwa [BitVec.extractLsb'_toNat, Nat.shiftRight_eq_div_pow, BitVec.setWidth_eq] at hentry

/-- Settles O1: RESULT takes the table's entry, which is the listed one. -/
theorem nibbleSubstitutionFillsResult : Obligations.NibbleSubstitutionFillsResult := by
  intro v s
  rw [listsTable_sbox.ofNat_eq_setWidth, listsTable_sboxInv.ofNat_eq_setWidth]
  exact ⟨exec_completes rfl s, exec_completes rfl s⟩

/-- Settles O2: `sub16` takes the table's entry in each of the four places, which is the listed one. -/
theorem blockSubstitutionWorksLaneByLane : Obligations.BlockSubstitutionWorksLaneByLane := by
  intro x s
  simp only [listsTable_sbox.listedNibble_eq, listsTable_sboxInv.listedNibble_eq]
  exact ⟨exec_completes rfl s, exec_completes rfl s⟩

/-! ## Permutation (R150 to R153, R158) -/

/-- The permutation by a table that undoes `t` reads bit `t[v]` of the operand into bit v. -/
theorem perm16_inverse_getLsbD {t u : Table} (h : Function.LeftInverse (tableAt u) (tableAt t)) (x : Block)
    (v : Nibble) : (perm16 x u).getLsbD v.toNat = x.getLsbD (tableAt t v).toNat := by
  have hu : Function.Injective (tableAt u) := Finite.injective_iff_surjective.2 h.surjective
  calc (perm16 x u).getLsbD v.toNat
    _ = (perm16 x u).getLsbD (tableAt u (tableAt t v)).toNat := by rw [h]
    _ = x.getLsbD (tableAt t v).toNat := perm16_getLsbD_tableAt hu x _

/-- Settles O3: PERM writes bit i at the table's entry for i, and PERMINV, whose table undoes the other, reads it
there. -/
theorem bitPermutationMovesEachBit : Obligations.BitPermutationMovesEachBit := by
  intro x s
  have hperm : Function.LeftInverse (tableAt defaultConfig.permInv) (tableAt defaultConfig.perm) :=
    defaultConfig_permInv ▸ tableAt_defaultPerm_involutive.leftInverse
  refine ⟨⟨perm16 x defaultConfig.perm, fun i => ?forward, exec_completes rfl s⟩,
    ⟨perm16 x defaultConfig.permInv, fun j => ?inverse, exec_completes rfl s⟩⟩
  case forward =>
    rw [listsTable_perm.getD_eq]
    exact perm16_getLsbD_tableAt hperm.injective x (.ofFin i)
  case inverse =>
    rw [listsTable_perm.getD_eq]
    exact perm16_inverse_getLsbD hperm x (.ofFin j)

/-- The default table takes mirrored positions to mirrored positions. -/
theorem tableAt_defaultPerm_mirror :
    ∀ v : Nibble, 15 - (tableAt defaultConfig.perm v).toNat = (tableAt defaultConfig.perm (15 - v)).toNat := by
  decide

theorem reverse_getLsbD (x : Block) (v : Nibble) : x.reverse.getLsbD v.toNat = x.getLsbD (15 - v).toNat := by
  have hv := v.isLt
  rw [BitVec.getLsbD_reverse, BitVec.getMsbD_eq_getLsbD, decide_eq_true hv, Bool.true_and]
  congr 1
  bv_omega

/-- Settles O31: reversal is the permutation of the mirrored positions, which the table maps to mirrored ones. -/
theorem defaultPermutationCommutesWithReversal : Obligations.DefaultPermutationCommutesWithReversal := by
  intro x
  have hinj := tableAt_defaultPerm_involutive.injective
  have hreverse : perm16 x.reverse defaultConfig.perm = (perm16 x defaultConfig.perm).reverse := by
    apply perm16_eq_of_bits hinj
    intro v
    rw [reverse_getLsbD, reverse_getLsbD, ← perm16_getLsbD_tableAt hinj x (15 - v), ← tableAt_defaultPerm_mirror]
    congr 1
    bv_omega
  rw [hreverse, BitVec.reverse_reverse_eq]

/-! ## The round cipher (R165 to R170) -/

theorem encrypt_eq_iterate (cfg : Config) (x : Block) (n : Nat) :
    encrypt cfg x n = (fun y => perm16 (sub16 y cfg.sbox) cfg.perm)^[n] x :=
  congrFun (repeatTimes_eq_iterate _ n) x

theorem decrypt_eq_iterate (cfg : Config) (x : Block) (n : Nat) :
    decrypt cfg x n = (fun y => sub16 (perm16 y cfg.permInv) cfg.sboxInv)^[n] x :=
  congrFun (repeatTimes_eq_iterate _ n) x

/-- Settles O4: the repeat loop of the rounds is the iterate. -/
theorem cipherCommandsIterateTheRound : Obligations.CipherCommandsIterateTheRound := by
  intro r x s hr
  have hw := (roundCount_wf r).2 hr
  rw [← encrypt_eq_iterate, ← decrypt_eq_iterate]
  exact ⟨exec_completes (i := .enc r x) hw s, exec_completes (i := .dec r x) hw s⟩

/-- Settles O7: each of the two commands completes from the RESULT of the one before, and only the last RESULT
remains. -/
theorem oneRoundIsSubstitutionThenPermutation : Obligations.OneRoundIsSubstitutionThenPermutation := by
  intro x s
  exact ⟨⟨_, _, exec_completes rfl s, exec_completes rfl _, exec_completes rfl s⟩,
    ⟨_, _, exec_completes rfl s, exec_completes rfl _, exec_completes rfl s⟩⟩

/-- A command that is not valid ends in the error ROUNDS, whatever its operation. -/
theorem exec_fails {i : Instr} (h : i.wf = false) (s : State) : exec i s = .next (failedAs 3 s.arch s) := by
  obtain ⟨hw, -⟩ | ⟨-, e⟩ := exec_cases i s
  · exact nomatch h.symm.trans hw
  · exact e

/-- Settles O8: none of the four is valid with round count 0. -/
theorem zeroRoundsEndsInTheRoundsError : Obligations.ZeroRoundsEndsInTheRoundsError :=
  fun _ s => ⟨exec_fails rfl s, exec_fails rfl s, exec_fails rfl s, exec_fails rfl s⟩

/-! ## The evaluator (R180 to R184, R195 to R204) -/

/-- The sum of the distances, bit by bit. -/
theorem sacSumOf_eq_sum_bits (o : Block) (t : Vector Block 16) :
    sacSumOf o t = ∑ i : Fin 16, ∑ j : Fin 16, ((o ^^^ t[i]).getLsbD j.val).toNat := by
  rw [sacSumOf_eq_sum]
  exact Finset.sum_congr rfl fun i _ => countP_positions_eq_sum fun j => (o ^^^ t[i]).getLsbD j.val

/-- Settles O5: the sample and the sum of its distances, which fits in the 9 bits of SAC_SUM. -/
theorem sacFillsTheSampleAndTheSum : Obligations.SacFillsTheSampleAndTheSum := by
  intro r b s hr
  refine ⟨sampleOrig defaultConfig b r.toNat, sampleTrials defaultConfig b r.toNat, _, rfl,
    sampleTrials_getElem defaultConfig b r.toNat, ?sum, exec_completes (i := .sac r b) ((roundCount_wf r).2 hr) s⟩
  rw [toNat_sacSum_ofNat, sacSumOf_eq_sum_bits]

/-- The loop of BIC_ZV sets the bits of the marked columns it visits. -/
theorem foldl_bitMask_getLsbD (p : Fin 16 → Prop) [DecidablePred p] (l : List (Fin 16)) (m : Block) (j : Fin 16) :
    (l.foldl (fun m j => if p j then m ||| bitMask j else m) m).getLsbD j.val = true ↔
      m.getLsbD j.val = true ∨ j ∈ l ∧ p j := by
  induction l generalizing m with
  | nil => simp
  | cons i l ih =>
    rw [List.foldl_cons, ih, List.mem_cons, or_and_right]
    by_cases hi : p i
    · have hhead : i = j ↔ j = i ∧ p j := ⟨fun h => ⟨h.symm, h ▸ hi⟩, fun h => h.1.symm⟩
      rw [if_pos hi, BitVec.getLsbD_or, bitMask_getLsbD, Bool.or_eq_true, decide_eq_true_iff, hhead, or_assoc]
    · have hhead : ¬ (j = i ∧ p j) := fun h => hi (h.1 ▸ h.2)
      rw [if_neg hi, or_iff_right hhead]

/-- BIC_ZV marks the columns of no ones and of ones alone (R199). -/
theorem zeroVarianceMask_getLsbD (t : Vector Block 16) (j : Fin 16) :
    (zeroVarianceMask (gramOf t)).getLsbD j.val = true ↔
      columnCount (gramOf t) j = 0 ∨ columnCount (gramOf t) j = 16 := by
  have hle := columnCount_le t j
  have hempty : ¬ (0 : Block).getLsbD j.val = true := by simp
  rw [zeroVarianceMask, foldl_bitMask_getLsbD, or_iff_right hempty, and_iff_right (mem_positions j), columnVariance,
    Nat.mul_eq_zero]
  omega

/-- Settles O6: the sample, its Gram matrix and mask, and the floor of the exact score, which fits in the 31 bits of
BIC_SCORE. -/
theorem bicFillsTheMatrixAndTheExactScore : Obligations.BicFillsTheMatrixAndTheExactScore := by
  intro r b s hr
  refine ⟨sampleOrig defaultConfig b r.toNat, sampleTrials defaultConfig b r.toNat,
    gramOf (sampleTrials defaultConfig b r.toNat), _, _, rfl, sampleTrials_getElem defaultConfig b r.toNat,
    gramAt_gramOf_eq_sum _, zeroVarianceMask_getLsbD _, ?score,
    exec_completes (i := .bic r b) ((roundCount_wf r).2 hr) s⟩
  rw [toNat_bicScore_ofNat, bicScoreOf_eq_floor]

/-! ## Write sets (R91) -/

theorem inWriteSetOf_eq_listed (op : Opcode) (r : Reg) : inWriteSetOf op r = listedWriteSet op r.offset.toNat := by
  cases r with
  | config k => cases op <;> revert k <;> decide
  | trial i => cases op <;> revert i <;> decide
  | bicGram m => cases op <;> revert m <;> decide
  | _ => cases op <;> rfl

theorem regWord_completeCommand {r : Reg} (h : r ≠ .status) (cfg : Config) (a : Arch) :
    regWord cfg (completeCommand a) r = regWord cfg a r := by
  cases r with
  | status => exact absurd rfl h
  | _ => rfl

/-- The writes of a command reach only the registers of its write set. -/
theorem regWord_commandWrites {i : Instr} {r : Reg} (h : inWriteSetOf i.opcode r = false) (cfg : Config) (a : Arch) :
    regWord cfg (commandWrites cfg i a) r = regWord cfg a r := by
  cases i with
  | sac n b =>
    cases r with
    | orig | trial | sacSum | sacPct => exact nomatch h
    | _ => rfl
  | bic n b =>
    cases r with
    | orig | trial | bicScore | bicZv | bicGram => exact nomatch h
    | _ => rfl
  | _ =>
    cases r with
    | result => exact nomatch h
    | _ => rfl

/-- Settles O9: a completion's writes reach its write set, and its end writes STATUS besides. -/
theorem completionKeepsRegistersOutsideItsWriteSet : Obligations.CompletionKeepsRegistersOutsideItsWriteSet := by
  refine ⟨inWriteSetOf_eq_listed, fun i s hw => ⟨_, exec_of_wellFormed hw s, rfl, rfl, rfl, fun r hr hlisted => ?_⟩⟩
  rw [← inWriteSetOf_eq_listed] at hlisted
  rw [completeWith_arch, regWord_completeCommand hr, regWord_commandWrites hlisted]

end Sys2Proof.Machine
end

section
/-! Proofs of the family other: the rows of the opcode table and the codes of a command error (30_encoding.md R105 to
R109; 60_exceptions.md R221, R223). -/

namespace Sys2Proof.Machine

/-! ## The words of a row -/

/-- The words of a row are the encodings of its commands, those with round count 0 included. -/
theorem decodeRow_eq_some_iff (w : Word) (i : Instr) : decodeRow w = some i ↔ encode i = w := by
  constructor
  · intro h
    rw [decodeRow] at h
    split at h
    case h_1 => exact nomatch h
    case h_2 op hop =>
      split_ifs at h with hres
      cases h
      exact encode_instr_of_fields hop hres
  · rintro rfl
    exact Laws.RowRoundTrip.of_fields i

/-- A word is read as a command of the operation when its OP is the operation's and no reserved field is set. -/
theorem exists_decodeRow_iff (w : Word) (op : Opcode) :
    (∃ i, decodeRow w = some i ∧ i.opcode = op) ↔ opField w = op.bits ∧ reservedFieldSet op w = false := by
  constructor
  · rintro ⟨i, h, rfl⟩
    obtain rfl := (decodeRow_eq_some_iff w i).1 h
    exact ⟨opField_encode i, reservedFieldSet_encode i⟩
  · rintro ⟨hop, hres⟩
    have hw := encode_instr_of_fields (w := w) (op := op) (by rw [hop, opcode_ofBits_bits]) (by simp [hres])
    exact ⟨_, (decodeRow_eq_some_iff w _).2 hw, instr_opcode op _ _⟩

/-! ## Match and mask, field by field -/

theorem toNat_append_eq_add {m n : Nat} (x : BitVec m) (y : BitVec n) :
    (x ++ y).toNat = x.toNat * 2 ^ n + y.toNat := by
  rw [BitVec.toNat_append, ← Nat.shiftLeft_add_eq_or_of_lt y.isLt, Nat.shiftLeft_eq]

theorem append_inj_iff {m n : Nat} {x y : BitVec m} {u v : BitVec n} : x ++ u = y ++ v ↔ x = y ∧ u = v := by
  refine ⟨fun h => ⟨?high, ?low⟩, fun ⟨hx, hu⟩ => by rw [hx, hu]⟩
  case high => rw [← BitVec.extractLsb'_append_eq_left (a := x) (b := u), h, BitVec.extractLsb'_append_eq_left]
  case low => rw [← BitVec.extractLsb'_append_eq_right (a := x) (b := u), h, BitVec.extractLsb'_append_eq_right]

theorem append_and_append_eq_iff {m n : Nat} {x y z : BitVec m} {u v w : BitVec n} :
    (x ++ u) &&& (y ++ v) = z ++ w ↔ x &&& y = z ∧ u &&& v = w := by
  rw [BitVec.and_append, append_inj_iff]

/-- The part of a mask on a field: every bit of it, or none. -/
def fieldMask (n : Nat) (fixed : Bool) : BitVec n := if fixed then BitVec.allOnes n else 0

/-- A field under its mask is 0 unless it is fixed and not 0. -/
theorem and_fieldMask_eq_zero_iff {n : Nat} (x : BitVec n) (fixed : Bool) :
    x &&& fieldMask n fixed = 0 ↔ (fixed && x != 0) = false := by
  cases fixed <;> simp [fieldMask]

/-- The fields of the word, with DATA as its upper twelve bits and its nibble (R100, R104). -/
theorem word_eq_append_fields (w : Word) :
    w = opField w ++ rsvField w ++ roundsField w ++
      ((dataField w).extractLsb' 4 12 ++ (dataField w).extractLsb' 0 4) := by
  have hdata : (dataField w).extractLsb' 4 12 ++ (dataField w).extractLsb' 0 4 = dataField w := by
    exact (BitVec.extractLsb'_append_extractLsb'_eq_extractLsb' rfl).trans BitVec.extractLsb'_eq_self
  rw [hdata]
  apply BitVec.eq_of_toNat_eq
  rw [toNat_word_of_fields w]
  simp only [toNat_append_eq_add]
  omega

theorem tableMask_eq_append (op : Opcode) :
    tableMask op = fieldMask 4 true ++ fieldMask 4 true ++ fieldMask 8 (!op.takesRounds) ++
      (fieldMask 12 op.takesNibble ++ fieldMask 4 false) := by
  cases op <;> rfl

theorem tableMatch_eq_append (op : Opcode) :
    tableMatch op = op.bits ++ (0 : BitVec 4) ++ (0 : BitVec 8) ++ ((0 : BitVec 12) ++ (0 : BitVec 4)) := by
  cases op <;> rfl

/-- The match fixes OP, and the mask takes in the fields of R108 that must be 0. -/
theorem and_tableMask_eq_tableMatch_iff (w : Word) (op : Opcode) :
    w &&& tableMask op = tableMatch op ↔ opField w = op.bits ∧ reservedFieldSet op w = false := by
  have hop : opField w &&& fieldMask 4 true = opField w := BitVec.and_allOnes
  rw [congrArg (· &&& tableMask op) (word_eq_append_fields w), tableMask_eq_append, tableMatch_eq_append]
  refine (append_and_append_eq_iff.trans (and_congr (append_and_append_eq_iff.trans
    (and_congr_left' append_and_append_eq_iff)) append_and_append_eq_iff)).trans ?_
  simp only [and_fieldMask_eq_zero_iff, hop, reservedFieldSet, Bool.or_eq_false_iff, Bool.true_and, Bool.false_and,
    and_true, and_assoc]
  exact and_congr_right' (and_congr_right' and_comm)

/-- Settles O13: a word's reading and its row's match and mask are both the OP of the row with no reserved field set, and
a word so read is the encoding of the command. -/
theorem rowsMeetMatchAndMask : Obligations.RowsMeetMatchAndMask := by
  refine ⟨fun w op => ?row, fun w => ?table, fun w i h => ?decoded⟩
  case row => rw [and_tableMask_eq_tableMatch_iff, exists_decodeRow_iff]
  case table => rw [decodeTableWord, if_pos le_rfl, Nat.mod_eq_of_lt w.isLt, BitVec.ofNat_toNat, BitVec.setWidth_eq]
  case decoded =>
    obtain rfl := (decodeRow_eq_some_iff w i).1 h
    rw [decode_encode]
    split_ifs <;> rfl

/-- Settles O14: the twelve words are evaluated. -/
theorem listedWordsDecodeAsTheSpecSays : Obligations.ListedWordsDecodeAsTheSpecSays := by
  unfold Obligations.ListedWordsDecodeAsTheSpecSays
  decide

/-! ## The code an accepted word leaves (R221) -/

theorem decode_eq_illegal_iff (w : Word) :
    decode w = .error .illegal ↔ w.toNat / 2 ^ 28 = 0 ∨ 0xB ≤ w.toNat / 2 ^ 28 := by
  rw [← toNat_opField, Nat.succ_le_iff, ← opcode_ofBits_eq_none_iff]
  refine ⟨fun h => ?_, decode_of_illegal⟩
  cases hop : Opcode.ofBits (opField w) with
  | none => rfl
  | some op =>
    simp only [decode, hop] at h
    split_ifs at h <;> cases h

/-- The code that acceptance records for an outcome of decoding: 0 for a valid command (R77, R225). -/
def recordedCode : Decoded → BitVec 4
  | .ok _ => 0
  | .error e => e.code

theorem acceptWord_ecode (v : Word) (s : State) : (acceptWord v s).arch.ecode = recordedCode (decode v) := by
  obtain ⟨i, hd, h⟩ | ⟨e, hd, h⟩ := acceptWord_cases v s
  · rw [h, hd]
    rfl
  · rw [h, hd]
    rfl

/-- Each code is recorded for one outcome, and there is no other code. -/
theorem recordedCode_iff (d : Decoded) :
    (recordedCode d = 1 ↔ d = .error .illegal) ∧
      (recordedCode d = 0 ∨ recordedCode d = 1 ∨ recordedCode d = 2 ∨ recordedCode d = 3) ∧
      (recordedCode d = 0 ↔ ∃ i, d = .ok i) ∧ (recordedCode d = 2 ↔ d = .error .reserved) ∧
      (recordedCode d = 3 ↔ d = .error .rounds) := by
  cases d with
  | ok i => simp [recordedCode]
  | error e => cases e <;> simp [recordedCode, CmdError.code]

/-- Settles O12: the idle core accepts the word and records the code of what it decodes to. -/
theorem errorCodesOfIllegalReservedAndRounds : Obligations.ErrorCodesOfIllegalReservedAndRounds := by
  intro s v hidle
  refine ⟨respond .written (acceptWord v s), ?_, acceptWord_arch_cmd v s, ?_⟩
  · rw [step_scheduled, takeEvent, busWrite_cmd_of_idle hidle]
  · rw [respond_arch, acceptWord_ecode, ← decode_eq_illegal_iff]
    exact recordedCode_iff (decode v)

end Sys2Proof.Machine
end

section
/-! Proofs of the family other: the address map and a bus read (20_memory.md R71 to R76), STATUS and BIC_GRAM as words
(10_state.md R34, R45). -/

namespace Sys2Proof.Machine

/-! ## The address map (R71) -/

theorem regAt_eq_some_iff (addr : Addr) (r : Reg) : regAt addr = some r ↔ addr = r.offset := by
  constructor
  · exact fun h => (offset_of_regAt h).symm
  · rintro rfl
    exact regAt_offset r

theorem toNat_offset_bicGram (m : Fin 64) : (Reg.bicGram m).offset.toNat = 0x100 + 4 * m.val := by
  revert m
  decide

/-- Settles O15: the offsets are evaluated, and the port's search is the inverse of the map. -/
theorem addressMapPlacesEachRegister : Obligations.AddressMapPlacesEachRegister :=
  ⟨by decide, toNat_offset_config, by decide, toNat_offset_bicGram, regAt_eq_some_iff, regAt_eq_none_iff⟩

/-! ## A read, check by check (R75) -/

theorem busRead_of_size_ne {size : AccessSize} (h : size ≠ .single 32) (cfg : Config) (addr : Addr) (s : State) :
    busRead cfg addr size s = respond (.busError .size) s := if_pos h

theorem busRead_of_badAddress {addr : Addr} (h : badAddress addr) (cfg : Config) (s : State) :
    busRead cfg addr (.single 32) s = respond (.busError .addr) s := by
  rw [busRead, if_neg (not_not.2 rfl), (regAt_eq_none_iff addr).2 h]

/-- The pending write set is that of the pending command, by offset (R91). -/
theorem inWriteSet_iff (pending : Option Instr) (r : Reg) :
    inWriteSet pending r = true ↔ ∃ i, pending = some i ∧ listedWriteSet i.opcode r.offset.toNat = true := by
  cases pending with
  | none => simp [inWriteSet]
  | some i => simp [inWriteSet, inWriteSetOf_eq_listed]

/-- Settles O16: one lemma for each check of R75 in its order, then the two outcomes of reading a register. -/
theorem busReadAnswersAndChangesNothing : Obligations.BusReadAnswersAndChangesNothing := by
  intro s addr size
  rw [step_scheduled, takeEvent]
  by_cases hsize : size = .single 32
  case neg =>
    rw [if_pos hsize, busRead_of_size_ne hsize]
    rfl
  subst hsize
  rw [if_neg (not_not.2 rfl)]
  by_cases hbad : badAddress addr
  case pos =>
    rw [if_pos hbad, busRead_of_badAddress hbad]
    rfl
  rw [if_neg hbad]
  obtain ⟨r, hr⟩ := Option.ne_none_iff_exists'.1 (mt (regAt_eq_none_iff addr).1 hbad)
  obtain rfl := offset_of_regAt hr
  rw [busRead_offset, readReg]
  by_cases hset : inWriteSet s.arch.pending r = true
  · rw [if_pos hset, if_pos ((inWriteSet_iff _ r).1 hset)]
    rfl
  · rw [if_neg hset, if_neg (mt (inWriteSet_iff _ r).2 hset)]
    exact ⟨r, rfl, rfl⟩

/-! ## The words of STATUS and BIC_GRAM (R34, R45) -/

/-- Settles O21: the word is its fields side by side, so its number is theirs at their places. -/
theorem statusWordHoldsItsFields : Obligations.StatusWordHoldsItsFields := by
  intro a
  simp only [regWord, statusWord, toNat_append_eq_add, BitVec.toNat_ofBool, isBusy, BitVec.ofNat_eq_ofNat,
    BitVec.toNat_ofNat]
  omega

/-- Byte lane l of a BIC_GRAM word is the entry of the row in that column, with 0 above it. -/
theorem extractLsb'_gramWord (g : BicMatrix) (m : Fin 64) : ∀ l : Fin 4,
    (gramWord g m).extractLsb' (8 * l.val) 8 = ((g[m.val / 4])[4 * (m.val % 4) + l.val]).setWidth 8
  | 0 => BitVec.extractLsb'_append_eq_right
  | 1 => (BitVec.extractLsb'_append_eq_of_le (by decide)).trans BitVec.extractLsb'_append_eq_right
  | 2 => (BitVec.extractLsb'_append_eq_of_le (by decide)).trans
      ((BitVec.extractLsb'_append_eq_of_le (by decide)).trans BitVec.extractLsb'_append_eq_right)
  | 3 => (BitVec.extractLsb'_append_eq_of_le (by decide)).trans
      ((BitVec.extractLsb'_append_eq_of_le (by decide)).trans BitVec.extractLsb'_append_eq_left)

/-- A part of a byte lane is a part of the word. -/
theorem extractLsb'_lane (w : Word) {lo start len : Nat} (h : start + len ≤ 8) :
    w.extractLsb' (lo + start) len = (w.extractLsb' lo 8).extractLsb' start len := by
  ext i hi
  simp [show start + i < 8 by omega, Nat.add_assoc]

theorem gram_reset_getElem (j k : Fin 16) : (Arch.reset.gram[j])[k] = 0 := by
  simp [Arch.reset]

/-- Settles O24: entry (j, k) stands in word 4·j + k div 4, in lane k mod 4. -/
theorem gramEntriesAreReadInByteLanes : Obligations.GramEntriesAreReadInByteLanes := by
  intro a j k
  have hlane := extractLsb'_gramWord a.gram ⟨4 * j.val + k.val / 4, by omega⟩ ⟨k.val % 4, by omega⟩
  simp only [show (4 * j.val + k.val / 4) / 4 = j.val by omega,
    show 4 * ((4 * j.val + k.val / 4) % 4) + k.val % 4 = k.val by omega] at hlane
  refine ⟨⟨4 * j.val + k.val / 4, by omega⟩, ?offset, ?entry, ?above, gram_reset_getElem j k⟩
  case offset =>
    rw [toNat_offset_bicGram]
    dsimp only
    omega
  case entry =>
    refine (extractLsb'_lane (lo := 8 * (k.val % 4)) (start := 0) _ (by decide)).trans ?_
    rw [regWord, hlane]
    exact (BitVec.extractLsb'_setWidth_of_le (by decide)).trans BitVec.extractLsb'_eq_self
  case above =>
    rw [extractLsb'_lane _ (by decide), regWord, hlane]
    ext i hi
    simp

end Sys2Proof.Machine
end

section
/-! Proofs of the family other: the step of the whole machine (20_memory.md R84; 60_exceptions.md R220;
70_reset_and_hazards.md R250, R265). -/

namespace Sys2Proof.Machine

/-! ## Every step answers (R20, R220) -/

/-- A command's meaning answers a state with nothing pending, valid or not. -/
theorem exec_ends (i : Instr) (s : State) : ∃ t, exec i s = .next t ∧ t.arch.pending = none := by
  obtain ⟨-, e⟩ | ⟨-, e⟩ := exec_cases i s
  · exact ⟨_, e, rfl⟩
  · exact ⟨_, e, rfl⟩

theorem engineTurn_of_pending {s : State} {i : Instr} (h : s.arch.pending = some i)
    (run : Instr → State → Host.Outcome State Fault Refusal) : engineTurn run s = run i s := by
  rw [engineTurn, h]

theorem engineTurn_of_idle {s : State} (h : s.arch.pending = none)
    (run : Instr → State → Host.Outcome State Fault Refusal) : engineTurn run s = .next s := by
  rw [engineTurn, h]

theorem engineTurn_answers (s : State) : ∃ t, engineTurn exec s = .next t := by
  cases hp : s.arch.pending with
  | none => exact ⟨s, engineTurn_of_idle hp exec⟩
  | some i =>
    obtain ⟨t, ht, -⟩ := exec_ends i s
    exact ⟨t, (engineTurn_of_pending hp exec).trans ht⟩

theorem step_of_nil {s : State} (h : s.schedule = []) : step s = engineTurn exec s := by
  rw [step, stepOf, h]

theorem step_of_cons {s : State} {e : Event} {rest : List Event} (h : s.schedule = e :: rest) :
    step s = takeEvent defaultConfig exec e { s with schedule := rest } := by
  rw [step, stepOf, h]

/-- Settles O45: each of the four events answers, and so does the engine's turn at the end of the schedule. -/
theorem everyStepAnswersANextState : Obligations.EveryStepAnswersANextState := by
  intro s
  cases hs : s.schedule with
  | nil =>
    rw [step_of_nil hs]
    exact engineTurn_answers s
  | cons e rest =>
    rw [step_of_cons hs]
    cases e with
    | engine => exact engineTurn_answers _
    | busRead | busWrite | reset => exact ⟨_, rfl⟩

/-! ## The engine's turn and reset (R84, R250) -/

theorem step_scheduled_engine_of_pending {s : State} {i : Instr} (h : s.arch.pending = some i) :
    step (scheduled .engine s) = exec i s :=
  engineTurn_of_pending h exec

/-- Settles O43: an engine turn, scheduled or at the end of the schedule, runs what is pending. -/
theorem engineStepRunsThePendingCommand : Obligations.EngineStepRunsThePendingCommand :=
  fun _ _ => ⟨step_scheduled_engine_of_pending, fun hp hs => (step_of_nil hs).trans (engineTurn_of_pending hp exec),
    step_scheduled_engine_of_idle, fun hp hs => (step_of_nil hs).trans (engineTurn_of_idle hp exec)⟩

/-- Settles O46: the reset event gives the core its reset value and keeps the other fields. -/
theorem resetClearsTheCore : Obligations.ResetClearsTheCore := fun s =>
  ⟨resetCore s, rfl, rfl, rfl, rfl, rfl, rfl, rfl, rfl, fun i => Vector.getElem_replicate i.isLt, rfl, rfl, rfl,
    gram_reset_getElem, rfl, fun _ => rfl, rfl, rfl, rfl⟩

/-! ## The run of a word (R77, R105) -/

theorem acceptWord_of_ok {v : Word} {i : Instr} (hd : decode v = .ok i) (s : State) :
    acceptWord v s = withArch (beginCommand i (latchCmd v s.arch)) s := by
  rw [acceptWord, hd]

theorem withFetchWord_toNat (s : State) (w : Word) : s.withFetchWord 32 w.toNat = placeWord w s := by
  rw [State.withFetchWord, Nat.mod_eq_of_lt w.isLt, BitVec.ofNat_toNat, BitVec.setWidth_eq]

/-- A valid word is placed as accepted, the engine's turn next. -/
theorem placeWord_of_ok {w : Word} {i : Instr} (hd : decode w = .ok i) (s : State) :
    placeWord w s = scheduled .engine (withArch (beginCommand i (latchCmd w s.arch)) s) := by
  rw [placeWord, hd]
  rfl

/-- A word with an error is placed as a write to CMD of the core with nothing pending. -/
theorem placeWord_of_error {w : Word} {e : CmdError} (hd : decode w = .error e) (s : State) :
    placeWord w s =
      scheduled (.busWrite 0x000 w (.single 32)) (withArch { s.arch with pending := none } s) := by
  rw [placeWord, hd]
  rfl

/-- Settles O44: acceptance makes the decoded command pending, which the engine's turn runs, and a placed word is in the
state just after its acceptance or just before its command error. -/
theorem stepRunsTheDecodedCommand : Obligations.StepRunsTheDecodedCommand := by
  refine ⟨fun s w i hidle hd => ?written, fun s w i hd => ?placed, fun s w e hd => ?error⟩
  case written =>
    refine ⟨respond .written (withArch (beginCommand i (latchCmd w s.arch)) s), ?_, rfl, rfl,
      step_scheduled_engine_of_pending rfl⟩
    rw [step_scheduled, takeEvent, busWrite_cmd_of_idle hidle, acceptWord_of_ok hd]
  case placed =>
    refine ⟨withArch (beginCommand i (latchCmd w s.arch)) s, ?_, rfl, rfl, rfl, rfl⟩
    rw [withFetchWord_toNat, placeWord_of_ok hd, step_scheduled_engine_of_pending rfl]
  case error =>
    rw [withFetchWord_toNat, placeWord_of_error hd, step_scheduled, takeEvent, busWrite_cmd_of_idle rfl,
      acceptWord_of_error hd]
    rfl

/-! ## A pending command ends (R265) -/

/-- The pending command is run, by its meaning, when the engine's turn comes next, scheduled or not. -/
theorem step_of_engineIsNext {s : State} {i : Instr} (h : engineIsNext s = true) (hp : s.arch.pending = some i) :
    step s = exec i { s with schedule := s.schedule.tail } := by
  cases hs : s.schedule with
  | nil => rw [step_of_nil hs, engineTurn_of_pending hp, List.tail_nil, ← hs]
  | cons e rest =>
    rw [engineIsNext, hs] at h
    cases e with
    | engine => exact (step_of_cons hs).trans (engineTurn_of_pending (s := { s with schedule := rest }) hp exec)
    | busRead | busWrite | reset => exact nomatch h

theorem step_of_resetIsNext {s : State} (h : resetIsNext s = true) :
    step s = .next { s with arch := State.reset.arch, schedule := s.schedule.tail } := by
  rw [resetIsNext] at h
  cases hs : s.schedule with
  | nil => exact nomatch hs ▸ h
  | cons e rest =>
    rw [hs] at h
    cases e with
    | reset => exact step_of_cons hs
    | busRead | busWrite | engine => exact nomatch h

/-- The next step ends the command: it is the command's meaning or reset. -/
def EndsNext (i : Instr) (s : State) : Prop :=
  (engineIsNext s = true ∧ step s = exec i { s with schedule := s.schedule.tail }) ∨
    (resetIsNext s = true ∧ step s = .next { s with arch := State.reset.arch, schedule := s.schedule.tail })

/-- Within `k` steps that leave the core as `a`, a state is reached whose next step ends the command, and nothing is
pending after it: what R265 asks for with the schedule's length as `k`. -/
def EndsWithin (i : Instr) (a : Arch) (k : Nat) (s : State) : Prop :=
  ∃ (n : Nat) (u t : State), n ≤ k ∧ Sys2Proof.core.run n s = .next u ∧ u.arch = a ∧ EndsNext i u ∧
    step u = .next t ∧ t.arch.pending = none ∧ Sys2Proof.core.run (n + 1) s = .next t

theorem EndsNext.pending_none {i : Instr} {s t : State} (h : EndsNext i s) (ht : step s = .next t) :
    t.arch.pending = none := by
  obtain ⟨-, e⟩ | ⟨-, e⟩ := h
  · obtain ⟨u, hu, hnone⟩ := exec_ends i { s with schedule := s.schedule.tail }
    cases (e.trans hu).symm.trans ht
    exact hnone
  · cases e.symm.trans ht
    rfl

theorem EndsNext.endsWithin {i : Instr} {s : State} (h : EndsNext i s) (k : Nat) : EndsWithin i s.arch k s := by
  obtain ⟨t, ht⟩ := everyStepAnswersANextState s
  exact ⟨0, s, t, Nat.zero_le k, rfl, rfl, h, ht, h.pending_none ht, core_run_succ ht 0⟩

theorem EndsWithin.of_step {i : Instr} {a : Arch} {k : Nat} {s t : State} (hs : step s = .next t)
    (h : EndsWithin i a k t) : EndsWithin i a (k + 1) s := by
  obtain ⟨n, u, v, hn, hu, ha, hends, hv, hnone, hv'⟩ := h
  exact ⟨n + 1, u, v, Nat.succ_le_succ hn, (core_run_succ hs n).trans hu, ha, hends, hv, hnone,
    (core_run_succ hs (n + 1)).trans hv'⟩

/-- The host's transactions are taken one by one, none of them reaching the core, until the engine or reset has its
turn. -/
theorem endsWithin_schedule {i : Instr} {l : List Event} {s : State} (hp : s.arch.pending = some i)
    (hl : s.schedule = l) : EndsWithin i s.arch l.length s := by
  induction l generalizing s with
  | nil =>
    have hengine : engineIsNext s = true := by rw [engineIsNext, hl]
    exact EndsNext.endsWithin (.inl ⟨hengine, step_of_engineIsNext hengine hp⟩) _
  | cons e rest ih =>
    by_cases hengine : engineIsNext s = true
    · exact EndsNext.endsWithin (.inl ⟨hengine, step_of_engineIsNext hengine hp⟩) _
    by_cases hreset : resetIsNext s = true
    · exact EndsNext.endsWithin (.inr ⟨hreset, step_of_resetIsNext hreset⟩) _
    obtain ⟨t, ht⟩ := everyStepAnswersANextState s
    have harch : t.arch = s.arch :=
      hostCannotDisturbAPendingCommand s t (by simp [hp]) (by simpa using hengine) (by simpa using hreset) ht
    have hrest : t.schedule = rest := by rw [(step_change ht).2, hl, List.tail_cons]
    exact .of_step ht (harch ▸ ih (harch ▸ hp) hrest)

/-- Settles O57: induction on the schedule. -/
theorem pendingCommandCompletes : Obligations.PendingCommandCompletes :=
  fun _ _ hp => endsWithin_schedule hp rfl

end Sys2Proof.Machine
end

section
/-! Proofs of the family other: the host's tools (20_memory.md R81, R82; 30_encoding.md R111, R112). -/

namespace Sys2Proof.Machine

/-! ## Framing (R81, R82) -/

/-- Padding looks at the parity of the length, so two bytes at the front change nothing. -/
theorem padText_cons_cons (b0 b1 : BitVec 8) (rest : List (BitVec 8)) :
    padText (b0 :: b1 :: rest) = b0 :: b1 :: padText rest := by
  have hparity : (b0 :: b1 :: rest).length % 2 = rest.length % 2 := by
    simp only [List.length_cons]
    omega
  rw [padText, padText, hparity]
  split_ifs <;> rfl

/-- The first two bytes of a text are its first block. -/
theorem frameText_cons_cons (b0 b1 : BitVec 8) (rest : List (BitVec 8)) :
    frameText (b0 :: b1 :: rest) = blockOfBytes b0 b1 :: frameText rest := by
  rw [frameText, padText_cons_cons, blocksOfBytes, frameText]

theorem frameText_singleton (b : BitVec 8) : frameText [b] = [blockOfBytes b spaceByte] := rfl

/-- Settles O58: induction on the text, two bytes at a time; an odd text ends in a byte and the space. -/
theorem textIsFramedBigEndian : Obligations.TextIsFramedBigEndian := by
  refine ⟨fun b0 b1 => toNat_append_eq_add b0 b1, fun text => ?_⟩
  induction text using blocksOfBytes.induct with
  | case1 b0 b1 rest ih =>
    obtain ⟨hlength, hblock⟩ := ih
    rw [frameText_cons_cons]
    refine ⟨?length, fun k hk => ?block⟩
    case length =>
      simp only [List.length_cons, hlength]
      omega
    case block =>
      cases k with
      | zero => rfl
      | succ k =>
        simp only [List.length_cons] at hk
        exact hblock k (by omega)
  | case2 b =>
    rw [frameText_singleton, List.length_singleton, List.length_singleton]
    refine ⟨rfl, fun k hk => ?_⟩
    obtain rfl : k = 0 := Nat.lt_one_iff.1 hk
    rfl
  | case3 => exact ⟨rfl, fun k hk => absurd hk (Nat.not_lt_zero k)⟩

/-! ## The assembler (R111, R112) -/

/-- The greatest operand of an operation (R104). -/
def operandLimit (op : Opcode) : Nat := if op.takesNibble then 15 else 0xFFFF

/-- The round count the assembler writes: 4 where it is omitted, 0 for an operation that takes none (R108, R112). -/
def writtenRounds (op : Opcode) (rounds : Option Nat) : Nat := if op.takesRounds then rounds.getD 4 else 0

/-- The operands are in range: a positive round count of 8 bits, or none where none is taken (R111). -/
abbrev OperandsInRange (op : Opcode) (rounds : Option Nat) (operand : Nat) : Prop :=
  operand ≤ operandLimit op ∧
    if op.takesRounds then 1 ≤ writtenRounds op rounds ∧ writtenRounds op rounds ≤ 255 else rounds = none

theorem takesNibble_of_takesRounds {op : Opcode} (h : op.takesRounds = true) : op.takesNibble = false := by
  rw [takesRounds_iff] at h
  rw [← Bool.not_eq_true, takesNibble_iff]
  omega

theorem operandLimit_lt (op : Opcode) : operandLimit op < 2 ^ 16 := by
  rw [operandLimit]
  split_ifs <;> norm_num

/-- A round count in range fits ROUNDS, and is positive exactly where one is taken. -/
theorem writtenRounds_spec {op : Opcode} {rounds : Option Nat}
    (h : if op.takesRounds then 1 ≤ writtenRounds op rounds ∧ writtenRounds op rounds ≤ 255 else rounds = none) :
    writtenRounds op rounds < 2 ^ 8 ∧ (op.takesRounds = true ↔ writtenRounds op rounds ≠ 0) := by
  split_ifs at h with ht
  · exact ⟨by omega, iff_of_true ht (by omega)⟩
  · rw [writtenRounds, if_neg ht]
    exact ⟨by norm_num, iff_of_false ht (by simp)⟩

/-- Both branches of the assembler in one equation. -/
theorem assembleCommand_eq (op : Opcode) (rounds : Option Nat) (operand : Nat) :
    assembleCommand op rounds operand =
      if OperandsInRange op rounds operand then
        some (op.instr (BitVec.ofNat 8 (writtenRounds op rounds)) (BitVec.ofNat 16 operand))
      else none := by
  by_cases h : op.takesRounds = true
  · simp [assembleCommand, OperandsInRange, operandLimit, writtenRounds, h, takesNibble_of_takesRounds h, defaultRounds,
      and_comm, and_left_comm]
  · simp [assembleCommand, OperandsInRange, operandLimit, writtenRounds, h, and_comm]

/-- Fields that fit the operation make a command that has them, and whose word decodes to it. -/
theorem instr_of_fitting_fields {op : Opcode} {r : RoundCount} {d : Block}
    (hd : op.takesNibble = true → d.toNat ≤ 15) (hr : op.takesRounds = true ↔ r ≠ 0) :
    (op.instr r d).opcode = op ∧ (op.instr r d).rounds = r ∧ (op.instr r d).data = d ∧
      decode (encode (op.instr r d)) = .ok (op.instr r d) := by
  rw [takesNibble_iff] at hd
  have hzero (hop : op.bits.toNat ≤ 6) : r.toNat = 0 := by
    have hnot := mt hr.2 (mt (takesRounds_iff op).1 (by omega))
    rw [not_not.1 hnot]
    rfl
  have hrounds : (op.instr r d).rounds = r := instr_rounds hzero d
  have hdata : (op.instr r d).data = d := instr_data (fun hop => Nat.div_eq_of_lt (Nat.lt_succ_of_le (hd hop))) r
  have hvalid : (op.instr r d).WellFormed := by
    rw [Instr.WellFormed, wf_eq, instr_opcode, hrounds]
    cases h : op.takesRounds with
    | true => simpa using hr.1 h
    | false => rfl
  exact ⟨instr_opcode op r d, hrounds, hdata, (decode_eq_ok_iff _ _).2 ⟨hvalid, rfl⟩⟩

/-- Settles O59: operands in range fit their fields without loss, and make a valid command; the others make none. -/
theorem assemblerGivesOnlyValidWords : Obligations.AssemblerGivesOnlyValidWords := by
  intro op rounds operand
  change if OperandsInRange op rounds operand then
      ∃ i, assembleCommand op rounds operand = some i ∧ i.opcode = op ∧ i.rounds.toNat = writtenRounds op rounds ∧
        i.data.toNat = operand ∧ decode (encode i) = .ok i
    else assembleCommand op rounds operand = none
  rw [assembleCommand_eq]
  split_ifs with h
  case neg => rfl
  obtain ⟨hlimit, hrounds⟩ := h
  obtain ⟨hlt, htakes⟩ := writtenRounds_spec hrounds
  have hr : (BitVec.ofNat 8 (writtenRounds op rounds)).toNat = writtenRounds op rounds := Nat.mod_eq_of_lt hlt
  have hd : (BitVec.ofNat 16 operand).toNat = operand := Nat.mod_eq_of_lt (hlimit.trans_lt (operandLimit_lt op))
  have hnibble : op.takesNibble = true → (BitVec.ofNat 16 operand).toNat ≤ 15 := by
    intro h
    rwa [operandLimit, if_pos h, ← hd] at hlimit
  have hround : op.takesRounds = true ↔ BitVec.ofNat 8 (writtenRounds op rounds) ≠ 0 := by
    rw [htakes, ← BitVec.toNat_ne_iff_ne, hr]
    rfl
  obtain ⟨hop, hrounds, hdata, hdecode⟩ := instr_of_fitting_fields hnibble hround
  exact ⟨_, rfl, hop, by rw [hrounds, hr], by rw [hdata, hd], hdecode⟩

end Sys2Proof.Machine
end
